-- ==== Sys2Proof/Word.lean ====
section
/-! DEFINITION. The widths of the values of CCQR (spec/00_scope.md R7, R8): a word, a command word, a data bus,
an index field and a rotation amount. All values are unsigned; bit 0 is the least significant bit. -/

namespace Sys2Proof

/-- A Word: "an unsigned 32-bit integer", arithmetic modulo 2^32 (R8). `WORD_BITS` of R7. -/
abbrev Word := BitVec 32

/-- A command word `CW`, 40 bits (R61). `CW_BITS` of R7. -/
abbrev CmdWord := BitVec 40

/-- Command data `CD` or response data `RD`, four 32-bit lanes (R65, R66). `DATA_BITS` of R7. -/
abbrev BusData := BitVec 128

/-- An index field of a command word, 8 bits (R64). `IDX_BITS` of R7. -/
abbrev IdxField := BitVec 8

/-- The index of a state word, 0 to 15 (R21, R40). `N_WORDS` of R7 is 16. -/
abbrev WordIdx := Fin 16

/-- A rotation amount, 1 to 31. R83: 0 and 32 are "degenerate/undefined", and a model makes them unrepresentable
(spec/93_implementation_defined.md U1; log 10). -/
abbrev RotAmt := { n : Nat // 1 ≤ n ∧ n ≤ 31 }

end Sys2Proof
end

