-- ==== Sys2Proof/Config.lean ====
section
/-! DEFINITION. What one instance of the hardware fixes and the spec leaves to a parameter (spec/00_scope.md R7), and
the free value of the model. An `opaque` constant has no body: no proof can see its value. -/

namespace Sys2Proof

/-- The four operand positions of a quadruple, in field order (R12, R102). -/
inductive Slot where
  | x | y | z | w
deriving DecidableEq, Repr

/-- `OVERLAP_WRITE_ORDER` (R7, R103): the order of the four write-backs of AQR. The spec fixes x, y, z, w, the last
write winning (decision D13; log 9). -/
def Config.overlapWriteOrder : List Slot := [.x, .y, .z, .w]

/-- The sixteen words that the `n`-th Reset event leaves in `S`: "unspecified. The hardware does not promise zero and does
not promise that the previous contents are gone" (R36, R193; U8, U9). A FREE VALUE: nothing constrains it (log 8). -/
opaque Config.wordsAfterReset : Nat → Vector Word 16

/-- One less than the latency of QR, free (log 11). -/
opaque Config.latQrLessOne : Nat

/-- One less than the latency of AQR, free (log 11). -/
opaque Config.latAqrLessOne : Nat

/-- One less than the latency of GET, free (log 11). -/
opaque Config.latGetLessOne : Nat

/-- One less than the latency of SET, free (log 11). -/
opaque Config.latSetLessOne : Nat

/-- `LAT_QR` (R7, R203): OPEN, a finite positive integer that "no rule of the model depends on". -/
def Config.latQr : Nat := Config.latQrLessOne + 1

/-- `LAT_AQR` (R7, R203): OPEN, a finite positive integer. -/
def Config.latAqr : Nat := Config.latAqrLessOne + 1

/-- `LAT_GET` (R7, R203): OPEN, a finite positive integer. -/
def Config.latGet : Nat := Config.latGetLessOne + 1

/-- `LAT_SET` (R7, R203): OPEN, a finite positive integer. -/
def Config.latSet : Nat := Config.latSetLessOne + 1

end Sys2Proof
end

