-- ==== Sys2Proof/Syntax.lean ====
section
/-! DEFINITION. The four commands as decoded (spec/30_encoding.md R63, R72) and the assembler lines of the host
(R73, R74). -/

namespace Sys2Proof

/-- A decoded command, one constructor per row of opcode_table.json. Indices are carried as the 8-bit values of
the command word (R72); the words of QR and SET are not part of the command word but of the command data (R65). -/
inductive Instr where
  /-- `QR`, format N: standalone quarter-round on the four lanes of `CD` (R94). -/
  | qr
  /-- `AQR x, y, z, w`, format Q: apply a quarter-round to four state words in place (R101). -/
  | aqr (x y z w : IdxField)
  /-- `GET i`, format I: read one state word (R106). -/
  | get (i : IdxField)
  /-- `SET i, v`, format I: write one state word with lane 0 of `CD` (R107). -/
  | set (i : IdxField)
deriving DecidableEq, Repr

/-- One assembler line as written, operands still unbounded numbers (R73, and the pseudo-instructions of R74). -/
inductive AsmLine where
  /-- `QR a, b, c, d` -/
  | qr (a b c d : Nat)
  /-- `AQR x, y, z, w` -/
  | aqr (x y z w : Nat)
  /-- `GET i` -/
  | get (i : Nat)
  /-- `SET i, v` -/
  | set (i v : Nat)
  /-- `COLROUND` (R123) -/
  | colround
  /-- `DIAGROUND` (R124) -/
  | diaground
  /-- `DBLROUND` (R125) -/
  | dblround
  /-- `PERMUTE20` (R126) -/
  | permute20
  /-- `LDST w0, ..., w15` (R127) -/
  | ldst (ws : List Nat)
  /-- `RDST` (R128) -/
  | rdst
deriving DecidableEq, Repr

end Sys2Proof
end

