-- ==== Sys2Proof/Decode.lean ====
section
/-! DEFINITION. The command word: its fields, the decoder, the encoder and the opcode table
(spec/30_encoding.md R61 to R64, R67, R68, R72, R75). -/

namespace Sys2Proof

/-- Field `op`, `CW[39:32]` (R61). -/
def opField (cw : CmdWord) : BitVec 8 := cw.extractLsb' 32 8

/-- Field `x`, `CW[31:24]` (R61). -/
def xField (cw : CmdWord) : IdxField := cw.extractLsb' 24 8

/-- Field `y`, `CW[23:16]` (R61). -/
def yField (cw : CmdWord) : IdxField := cw.extractLsb' 16 8

/-- Field `z`, `CW[15:8]` (R61). -/
def zField (cw : CmdWord) : IdxField := cw.extractLsb' 8 8

/-- Field `w`, `CW[7:0]` (R61). -/
def wField (cw : CmdWord) : IdxField := cw.extractLsb' 0 8

/-- What a command word decodes to: a command, or one of the two rejections (R72). -/
inductive Decoded where
  /-- A defined opcode in its canonical form. -/
  | command (i : Instr)
  /-- A defined opcode with a non-zero reserved field (R68): raises Fatal(ILLEGAL_FORM). -/
  | illegalForm
  /-- An undefined opcode, whatever the other fields hold (R67): raises Fatal(ILLEGAL_OPCODE). -/
  | illegalOpcode
deriving DecidableEq, Repr

/-- The decoder, total on all 2^40 command words (R72). Indices are not range-checked here. -/
def decode (cw : CmdWord) : Decoded :=
  let op := opField cw
  let x := xField cw
  let y := yField cw
  let z := zField cw
  let w := wField cw
  if op = 0x01#8 then (if x ||| y ||| z ||| w ≠ 0#8 then .illegalForm else .command .qr)
  else if op = 0x02#8 then .command (.aqr x y z w)
  else if op = 0x03#8 then (if x ||| y ||| z ≠ 0#8 then .illegalForm else .command (.get w))
  else if op = 0x04#8 then (if x ||| y ||| z ≠ 0#8 then .illegalForm else .command (.set w))
  else .illegalOpcode

/-- `CW = {op, x, y, z, w}` (R61). -/
def packWord (op : BitVec 8) (x y z w : IdxField) : CmdWord := op ++ x ++ y ++ z ++ w

/-- The one command word of a command (R63, R73): reserved fields are zero (R68). -/
def encode : Instr → CmdWord
  | .qr => packWord 0x01#8 0#8 0#8 0#8 0#8
  | .aqr x y z w => packWord 0x02#8 x y z w
  | .get i => packWord 0x03#8 0#8 0#8 0#8 i
  | .set i => packWord 0x04#8 0#8 0#8 0#8 i

/-- The mnemonic of a command (R63). -/
def Instr.mnemonic : Instr → String
  | .qr => "QR"
  | .aqr _ _ _ _ => "AQR"
  | .get _ => "GET"
  | .set _ => "SET"

/-- A row of opcode_table.json (R75): `CW` selects the row exactly when `(CW and mask) = pattern`. -/
structure OpRow where
  mnemonic : String
  pattern : CmdWord
  mask : CmdWord
deriving DecidableEq, Repr

/-- A command word selects a row (R75). -/
def OpRow.selects (r : OpRow) (cw : CmdWord) : Bool := decide (cw &&& r.mask = r.pattern)

/-- The four rows of opcode_table.json (R75), its "match" called pattern here. -/
def opcodeTable : List OpRow :=
  [⟨"QR", 0x0100000000#40, 0xffffffffff#40⟩,
   ⟨"AQR", 0x0200000000#40, 0xff00000000#40⟩,
   ⟨"GET", 0x0300000000#40, 0xffffffff00#40⟩,
   ⟨"SET", 0x0400000000#40, 0xffffffff00#40⟩]

/-- The command word that the number `w` of `nbits` bits writes down: `CW` is ONE 40-bit word without a byte order
(R42), bit 0 its least significant bit, and every bit from `nbits` up is 0 (log 16). -/
def tableWord (nbits w : Nat) : CmdWord := BitVec.ofNat 40 (w % 2 ^ nbits)

/-- What the decoder reads from the `nbits`-bit number `w` of the opcode table; none where it refuses. A number that
needs more than 40 bits is no command word (R71; log 16). -/
def decodeTableWord (nbits w : Nat) : Option Instr :=
  if w % 2 ^ nbits < 2 ^ 40 then
    match decode (tableWord nbits w) with
    | .command i => some i
    | .illegalForm => none
    | .illegalOpcode => none
  else none

end Sys2Proof
end

