-- ==== Sys2Proof/Machine/State.lean ====
section
/-! DEFINITION. The state of the machine (spec/10_state.md R20), its value at reset (R36), the host events it
answers to, and the reasons a step can stop. -/

namespace Sys2Proof.Machine

/-- One command as the host presents it: the command word `CW` and the command data `CD` (R60). -/
structure Command where
  word : CmdWord
  data : BusData
deriving DecidableEq, Repr

/-- What the host can do to the machine (R10, R60, R195): apply `Reset`, or present a command. -/
inductive HostEvent where
  /-- The host applies `rst` (R190). -/
  | reset
  /-- The host presents a command, `Issue(CW, CD)` (R60). -/
  | issue (c : Command)
deriving DecidableEq, Repr

/-- The causes of a fatal fault (spec/60_exceptions.md R161). -/
inductive Cause where
  | illegalOpcode | illegalForm | indexRange | uninitRead
deriving DecidableEq, Repr

/-- Why the machine cannot take a step. A `Fatal(cause)` of the spec is none of these: the spec describes the state it
leaves, so it is a next state (R163; log 4). -/
inductive Fault where
  /-- Raised by every command, and by `step`, when a command is presented in the fatal state: "an `Issue` event has no
  step from a state with `FATAL = 1`" (R166, R170; U15 "stuck"). SAFE: nothing is proved of a command that the
  hardware does not take (log 5). -/
  | notAccepted
deriving DecidableEq, Repr

/-- Why the model has no meaning for an instruction. -/
inductive Refusal where
  /-- An instruction without a meaning in this model. No arm of `exec` raises it. SAFE: nothing is proved of such an
  instruction. -/
  | notModelled (mnemonic : String)
deriving DecidableEq, Repr

/-- The state. `S`, `V`, `FATAL`, `CAUSE` and `FINFO` are "the whole architectural state of the block" (R20); the other
fields are the MODEL's own (R35; log 1, 2, 3, 8). -/
structure State where
  /-- The sixteen state words `S[0]` .. `S[15]` (R21). -/
  S : Vector Word 16
  /-- The valid bits; bit `i` is `V[i]`, set when `S[i]` has been written since the last reset (R25). -/
  V : BitVec 16
  /-- A fatal precondition failure has occurred since the last reset (R26). -/
  FATAL : Bool
  /-- The cause code of that failure, 0 while `FATAL = 0` (R27). -/
  CAUSE : BitVec 4
  /-- The command word that failed, 0 while `FATAL = 0` (R28). -/
  FINFO : CmdWord
  /-- Model's own: the command word sampled at the last acceptance (R60; log 2). -/
  CW : CmdWord
  /-- Model's own: the command data sampled at the last acceptance (R60; log 2). -/
  CD : BusData
  /-- Model's own: what the host is still to do, the next event first (R10; log 1). -/
  pending : List HostEvent
  /-- Model's own: the responses delivered, the oldest first (R206; log 3). -/
  responses : List BusData
  /-- Model's own: how many Reset events there have been; it numbers the free words they leave in `S` (log 8). -/
  resets : Nat
deriving DecidableEq, Repr

/-- The machine right after reset (R36): `V`, `FATAL`, `CAUSE` and `FINFO` are 0 as the spec says. The spec gives `S` no
value; here it is zero (log 7). The model's own fields are empty (log 1, 2, 3, 8). -/
def State.reset : State where
  S := Vector.replicate 16 0#32
  V := 0#16
  FATAL := false
  CAUSE := 0#4
  FINFO := 0#40
  CW := 0#40
  CD := 0#128
  pending := []
  responses := []
  resets := 0

end Sys2Proof.Machine
end

