-- ==== Sys2Proof/Machine/Ops.lean ====
section
/-! DEFINITION. The named operations over the state: reading and writing a state word and its valid bit, delivering a
response, taking the fatal fault (the one exception of this hardware) and the Reset event (its only way out), and the
outputs the host sees. -/

namespace Sys2Proof.Machine

/-- What a command answers. -/
abbrev Answer := Host.Outcome State Fault Refusal

/-- `S[i]` (R9, R21). -/
def State.word (s : State) (i : WordIdx) : Word := s.S[i.1]

/-- `V[i]` (R9, R25). -/
def State.valid (s : State) (i : WordIdx) : Bool := s.V.getLsbD i.1

/-- `S[i] <- v` (R9). -/
def State.writeWord (s : State) (i : WordIdx) (v : Word) : State := { s with S := s.S.set i.1 v }

/-- `V[i] <- 1` (R9, R25). -/
def State.setValid (s : State) (i : WordIdx) : State := { s with V := s.V ||| BitVec.twoPow 16 i.1 }

/-- `respond(rd)`: the 128-bit response is delivered (R9, R66). -/
def State.respond (s : State) (rd : BusData) : State := { s with responses := s.responses ++ [rd] }

/-- The code recorded in `CAUSE` (R161). -/
def Cause.code : Cause → BitVec 4
  | .illegalOpcode => 1#4
  | .illegalForm => 2#4
  | .indexRange => 3#4
  | .uninitRead => 4#4

/-- Fatal entry, `raise Fatal(cause)` (R163): `FATAL <- 1`, `CAUSE <- cause`, `FINFO <- CW`, nothing else; no response. -/
def State.raiseFatal (s : State) (c : Cause) : State := { s with FATAL := true, CAUSE := c.code, FINFO := s.CW }

/-- The Reset event (R190), in any state, the only return from the fatal state (R167): `V`, `FATAL`, `CAUSE` and `FINFO`
become 0 and `S` is left unspecified, as free words (R36, R193; log 8). -/
def State.applyReset (s : State) : State :=
  { s with
    S := Config.wordsAfterReset s.resets
    V := 0#16
    FATAL := false
    CAUSE := 0#4
    FINFO := 0#40
    resets := s.resets + 1 }

/-- The Reset event as the host applies it: what the host does after it is `rest` (R190, R191). -/
def State.takeReset (s : State) (rest : List HostEvent) : State := { s.applyReset with pending := rest }

/-- The engine accepts a command: `CW` and `CD` are sampled (R60), and the host's list moves on to `rest`. -/
def State.sample (s : State) (c : Command) (rest : List HostEvent) : State :=
  { s with CW := c.word, CD := c.data, pending := rest }

/-- Step 1 of every command (R100): in the fatal state it is not accepted, and there is no step (R166; log 5). -/
def whenAccepting (s : State) (k : Answer) : Answer := if s.FATAL then .fault .notAccepted else k

/-- The status outputs (R31) and `cmd_ready` between two commands (R60). -/
structure Outputs where
  fatal : Bool
  cause : BitVec 4
  finfo : BitVec 40
  vmask : BitVec 16
  cmdReady : Bool
deriving DecidableEq, Repr

/-- The outputs are "plain copies of state" (R31); `cmd_ready` is 0 for ever while `FATAL = 1` (R60). -/
def State.outputs (s : State) : Outputs where
  fatal := s.FATAL
  cause := s.CAUSE
  finfo := s.FINFO
  vmask := s.V
  cmdReady := !s.FATAL

end Sys2Proof.Machine
end

