-- ==== Sys2Proof/Machine/Primitives.lean ====
section
/-! DEFINITION. The three word operations (spec/40_word_primitives.md R80 to R86) and the quarter-round function
(spec/41_quarter_round.md R90). They are functions of the datapath and not commands; none touches the state, and none
sets a flag, because the hardware has no flag (R32). -/

namespace Sys2Proof.Machine

/-- `add32(p, q) = (p + q) mod 2^32`, the exact sum reduced, the carry out discarded (R80). -/
def add32 (p q : Word) : Word := BitVec.ofNat 32 (p.toNat + q.toNat)

/-- `xor32(p, q)`: bit `k` is 1 exactly when bit `k` of `p` and of `q` differ (R81; log 17). -/
def xor32 (p q : Word) : Word := p ^^^ q

/-- `rotl32(p, n) = ((p << n) | (p >> (32 - n))) mod 2^32` on exact integers, for `n` in 1..31 (R82, R83). -/
def rotl32 (p : Word) (n : RotAmt) : Word := BitVec.ofNat 32 ((p.toNat <<< n.1) ||| (p.toNat >>> (32 - n.1)))

/-- The fixed rotator of step 1, by 16 (R83, R90). -/
def rot16 (p : Word) : Word := rotl32 p ⟨16, by decide⟩

/-- The fixed rotator of step 2, by 12 (R83, R90). -/
def rot12 (p : Word) : Word := rotl32 p ⟨12, by decide⟩

/-- The fixed rotator of step 3, by 8 (R83, R90). -/
def rot8 (p : Word) : Word := rotl32 p ⟨8, by decide⟩

/-- The fixed rotator of step 4, by 7 (R83, R90). -/
def rot7 (p : Word) : Word := rotl32 p ⟨7, by decide⟩

/-- The running values of a quarter-round, and its result (R90). -/
structure Quad where
  a : Word
  b : Word
  c : Word
  d : Word
deriving DecidableEq, Repr

/-- The quarter-round: twelve operations, "exact sequence, order matters, each step modifies the running values used by
the next step" (R90, R92). -/
def qr (q : Quad) : Quad :=
  let ⟨a, b, c, d⟩ := q
  -- step 1
  let a := add32 a b
  let d := xor32 d a
  let d := rot16 d
  -- step 2
  let c := add32 c d
  let b := xor32 b c
  let b := rot12 b
  -- step 3
  let a := add32 a b
  let d := xor32 d a
  let d := rot8 d
  -- step 4
  let c := add32 c d
  let b := xor32 b c
  let b := rot7 b
  ⟨a, b, c, d⟩

/-- The result of a quarter-round that belongs to an operand position: `x ↔ a`, `y ↔ b`, `z ↔ c`, `w ↔ d` (R102). -/
def Quad.at (q : Quad) : Slot → Word
  | .x => q.a
  | .y => q.b
  | .z => q.c
  | .w => q.d

end Sys2Proof.Machine
end

