-- ==== Sys2Proof/Machine/Operands.lean ====
section
/-! DEFINITION. The operand forms: an index field (spec/30_encoding.md R64), a readable state word (R25), the lanes of
the data buses (R65, R66), and the write-back of a quarter-round (spec/42_state_engine.md R103). -/

namespace Sys2Proof.Machine

/-- The state word an index field names: 0..15 select a word, 16..255 none, with no wrap-around (R41, R64). -/
def wordIdx (f : IdxField) : Option WordIdx := if h : f.toNat < 16 then some ⟨f.toNat, h⟩ else none

/-- The range check of an index operand (R100 step 3, R108), then what follows with the index. -/
def withIndex (s : State) (f : IdxField) (k : WordIdx → Answer) : Answer :=
  match wordIdx f with
  | some i => k i
  | none => .next (s.raiseFatal .indexRange)

/-- The valid check of a word the command reads (R100 step 4), then what follows with `S[i]`. -/
def withWord (s : State) (i : WordIdx) (k : Word → Answer) : Answer :=
  if s.valid i then k (s.word i) else .next (s.raiseFatal .uninitRead)

/-- Lane `k` of a data bus, bits `32k+31 : 32k` (R65). -/
def lane (d : BusData) (k : Fin 4) : Word := d.extractLsb' (32 * k.1) 32

/-- The four lanes of a data bus as a quadruple, `a` in lane 0 (R65, R94). -/
def lanesOf (d : BusData) : Quad := ⟨lane d 0, lane d 1, lane d 2, lane d 3⟩

/-- The data bus with the given lanes, lane 0 first (R66): `{l3, l2, l1, l0}`. -/
def busOf (l0 l1 l2 l3 : Word) : BusData := l3 ++ l2 ++ l1 ++ l0

/-- The response of QR: `a'` in lane 0 up to `d'` in lane 3 (R66, R94). -/
def busOfQuad (q : Quad) : BusData := busOf q.a q.b q.c q.d

/-- The response of GET: the word in lane 0, lanes 1 to 3 zero (R66, R106). -/
def busOfWord (v : Word) : BusData := v.setWidth 128

/-- Four word indices, one per operand position. -/
structure IdxQuad where
  x : WordIdx
  y : WordIdx
  z : WordIdx
  w : WordIdx
deriving DecidableEq, Repr

/-- The index in an operand position. -/
def IdxQuad.at (q : IdxQuad) : Slot → WordIdx
  | .x => q.x
  | .y => q.y
  | .z => q.z
  | .w => q.w

/-- The write-backs of a quarter-round, one operand position after another, a later write replacing an earlier one
(R103). -/
def writeBack (order : List Slot) (ix : IdxQuad) (r : Quad) (s : State) : State :=
  order.foldl (fun t p => t.writeWord (ix.at p) (r.at p)) s

end Sys2Proof.Machine
end

