-- ==== Sys2Proof/Machine/QuarterRound.lean ====
section
/-! DEFINITION. The command QR (spec/41_quarter_round.md R94). -/

namespace Sys2Proof.Machine

/-- `QR a, b, c, d` (R94): the quarter-round of the four lanes of `CD`, delivered in the four lanes of `RD`. `S` and `V`
are neither read nor written. -/
def execQr (s : State) : Answer :=
  whenAccepting s <| .next (s.respond (busOfQuad (qr (lanesOf s.CD))))

end Sys2Proof.Machine
end

