-- ==== Sys2Proof/Machine/StateEngine.lean ====
section
/-! DEFINITION. The commands of the state permutation engine, AQR, GET and SET (spec/42_state_engine.md R101, R106,
R107), each in the order of R100: range checks, valid checks, reads, computation, writes, response. -/

namespace Sys2Proof.Machine

/-- `AQR x, y, z, w` (R101): `S[x], S[y], S[z], S[w]` become their quarter-round, all four reads before any write, the
writes in the order of `OVERLAP_WRITE_ORDER` (R103). It responds zero (R66). -/
def execAqr (x y z w : IdxField) (s : State) : Answer :=
  whenAccepting s <|
  withIndex s x fun ix =>
  withIndex s y fun iy =>
  withIndex s z fun iz =>
  withIndex s w fun iw =>
  withWord s ix fun a =>
  withWord s iy fun b =>
  withWord s iz fun c =>
  withWord s iw fun d =>
  .next ((writeBack Config.overlapWriteOrder ⟨ix, iy, iz, iw⟩ (qr ⟨a, b, c, d⟩) s).respond 0#128)

/-- `GET i` (R106): it responds `S[i]` in lane 0; no state changes. -/
def execGet (i : IdxField) (s : State) : Answer :=
  whenAccepting s <|
  withIndex s i fun ii =>
  withWord s ii fun v =>
  .next (s.respond (busOfWord v))

/-- `SET i, v` (R107): `S[i] <- CD[31:0]`, `V[i] <- 1`, and it responds zero (R66). -/
def execSet (i : IdxField) (s : State) : Answer :=
  whenAccepting s <|
  withIndex s i fun ii =>
  .next (((s.writeWord ii (lane s.CD 0)).setValid ii).respond 0#128)

end Sys2Proof.Machine
end

