-- ==== Sys2Proof/Machine/Dispatch.lean ====
section
/-! DEFINITION. The meaning of every command, one arm per constructor. -/

namespace Sys2Proof.Machine

/-- The execution of a decoded command whose `CW` and `CD` have been sampled (spec/42_state_engine.md R100). -/
def exec (i : Instr) (s : State) : Host.Outcome State Fault Refusal :=
  match i with
  | .qr => Sys2Proof.Machine.execQr s
  | .aqr x y z w => Sys2Proof.Machine.execAqr x y z w s
  | .get n => Sys2Proof.Machine.execGet n s
  | .set n => Sys2Proof.Machine.execSet n s

end Sys2Proof.Machine
end

