-- ==== Sys2Proof/Machine/Fetch.lean ====
section
/-! DEFINITION. What a step of the machine begins with: the next event of the host. The block fetches nothing itself
(spec/10_state.md R30); a command arrives from the host and is accepted, or not (spec/00_scope.md R11). -/

namespace Sys2Proof.Machine

/-- What the next event of the host asks of the engine. -/
inductive Fetched where
  /-- The host presents nothing. -/
  | idle
  /-- The host applies Reset; `rest` is what it does after. -/
  | reset (rest : List HostEvent)
  /-- A command is presented in the fatal state, and the host applies no Reset any more. -/
  | stuck
  /-- A command is accepted, and its word decodes. The state has it sampled. -/
  | run (i : Instr) (s : State)
  /-- A command is accepted, and its word is rejected by the decoder. The state has it sampled. -/
  | reject (c : Cause) (s : State)
deriving DecidableEq, Repr

/-- What the host does from its next Reset on, `none` if it applies none: the commands before that Reset are those that
an engine in the fatal state never takes (R166; log 5). -/
def afterReset : List HostEvent → Option (List HostEvent)
  | [] => none
  | .reset :: rest => some rest
  | .issue _ :: rest => afterReset rest

/-- Step 2 of a command (R100): decode the sampled word. -/
def decodeSampled (s : State) : Fetched :=
  match decode s.CW with
  | .command i => .run i s
  | .illegalForm => .reject .illegalForm s
  | .illegalOpcode => .reject .illegalOpcode s

/-- The next event of the host. A command is accepted only while `FATAL = 0`; in the fatal state only Reset is enabled
(R100 step 1, R166, R190; log 1, 5, 6). -/
def fetch (s : State) : Fetched :=
  match s.pending with
  | [] => .idle
  | .reset :: rest => .reset rest
  | .issue c :: rest =>
    if s.FATAL then
      match afterReset rest with
      | some rest' => .reset rest'
      | none => .stuck
    else decodeSampled (s.sample c rest)

/-- The host presents the command `c` next, before all it was to do. -/
def State.present (s : State) (c : Command) : State := { s with pending := .issue c :: s.pending }

end Sys2Proof.Machine
end

