-- ==== Sys2Proof/Machine/Step.lean ====
section
/-! DEFINITION. One step of the machine: one event of the host, answered whole (spec/42_state_engine.md R100,
spec/70_reset_and_hazards.md R190, R191). -/

namespace Sys2Proof.Machine

/-- One step. With nothing presented nothing happens (log 6); Reset is applied in any state; an accepted command is
executed, or its word raises the fatal fault of the decoder; a command presented in the fatal state has no step. -/
def step (s : State) : Host.Outcome State Fault Refusal :=
  match fetch s with
  | .idle => .next s
  | .reset rest => .next (s.takeReset rest)
  | .stuck => .fault .notAccepted
  | .run i t => exec i t
  | .reject c t => .next (t.raiseFatal c)

/-- `s` with the instruction whose bits are `w` presented next on the command port, its data lanes zero as the test
vectors write ignored lanes (spec/30_encoding.md R73; log 1, 16). -/
def State.withFetchWord (s : State) (nbits w : Nat) : State := s.present ⟨tableWord nbits w, 0#128⟩

end Sys2Proof.Machine
end

