-- ==== Sys2Proof/Machine/Schedule.lean ====
section
/-! DEFINITION. The column and diagonal schedule and the six pseudo-instructions of the host
(spec/43_round_schedule.md R120 to R128). The hardware knows none of them (R105, R122): each is a fixed list of
commands that the host presents. -/

namespace Sys2Proof.Machine

/-- The row-major index of row `r`, column `c` of the 4×4 matrix (R22). -/
def matrixIdx (r c : Fin 4) : WordIdx := ⟨4 * r.1 + c.1, by omega⟩

/-- The column quadruples `COLQ` (R120). -/
def colq : List IdxQuad := [⟨0, 4, 8, 12⟩, ⟨1, 5, 9, 13⟩, ⟨2, 6, 10, 14⟩, ⟨3, 7, 11, 15⟩]

/-- The diagonal quadruples `DIAGQ` (R120). -/
def diagq : List IdxQuad := [⟨0, 5, 10, 15⟩, ⟨1, 6, 11, 12⟩, ⟨2, 7, 8, 13⟩, ⟨3, 4, 9, 14⟩]

/-- The index field that names a state word (R64). -/
def idxField (i : WordIdx) : IdxField := BitVec.ofNat 8 i.1

/-- The command `AQR x, y, z, w`, its ignored lanes written as zero (R73). -/
def aqrCommand (q : IdxQuad) : Command :=
  ⟨encode (.aqr (idxField q.x) (idxField q.y) (idxField q.z) (idxField q.w)), 0#128⟩

/-- The command `SET i, v` (R73). -/
def setCommand (i : WordIdx) (v : Word) : Command := ⟨encode (.set (idxField i)), busOfWord v⟩

/-- The command `GET i` (R73). -/
def getCommand (i : WordIdx) : Command := ⟨encode (.get (idxField i)), 0#128⟩

/-- `COLROUND` (R123). -/
def colround : List Command := colq.map aqrCommand

/-- `DIAGROUND` (R124). -/
def diaground : List Command := diagq.map aqrCommand

/-- `DBLROUND`: the column round, then the diagonal round (R125). -/
def dblround : List Command := colround ++ diaground

/-- `N_DOUBLE_ROUNDS` double rounds one after another; the count is the host's (R126). -/
def doubleRounds : Nat → List Command
  | 0 => []
  | n + 1 => dblround ++ doubleRounds n

/-- `PERMUTE20`: ten double rounds (R126). -/
def permute20 : List Command := doubleRounds 10

/-- `LDST w0, ..., w15`: sixteen SET commands in index order (R127). -/
def ldst (ws : Vector Word 16) : List Command := (List.finRange 16).map fun i => setCommand i ws[i.1]

/-- `RDST`: sixteen GET commands in index order (R128). -/
def rdst : List Command := (List.finRange 16).map getCommand

/-- The host presents these commands one after another (R206). -/
def issueAll (cs : List Command) : List HostEvent := cs.map .issue

/-- The words of the state after one quarter-round on the words of a quadruple: each named word gets the result of its
position, and, of a word named twice, the last position counts (R101, R103). -/
def quarterOn (q : IdxQuad) (S : Vector Word 16) : Vector Word 16 :=
  let r := qr ⟨S[q.x.1], S[q.y.1], S[q.z.1], S[q.w.1]⟩
  (((S.set q.x.1 r.a).set q.y.1 r.b).set q.z.1 r.c).set q.w.1 r.d

/-- The words of the state after the quarter-rounds of a list of quadruples. -/
def quartersOn : List IdxQuad → Vector Word 16 → Vector Word 16
  | [], S => S
  | q :: qs, S => quartersOn qs (quarterOn q S)

/-- The words of the state after `n` double rounds (R125, R126). -/
def doubleRoundsOn : Nat → Vector Word 16 → Vector Word 16
  | 0, S => S
  | n + 1, S => doubleRoundsOn n (quartersOn diagq (quartersOn colq S))

end Sys2Proof.Machine
end

