-- ==== Sys2Proof/WellFormed.lean ====
section
/-! DEFINITION. Well-formedness of a command (every index addresses a state word) and of an assembler line (every
operand can be encoded). A command that is not well formed still decodes and executes: it raises
Fatal(INDEX_RANGE) (spec/30_encoding.md R64). -/

namespace Sys2Proof

/-- The index field is in 0..15, where an index selects a state word (R41, R64). -/
def IdxField.inRange (f : IdxField) : Bool := decide (f.toNat < 16)

/-- The command lies in the document's "well-typed domain (32-bit words, valid indices)" (R160): each of its index
operands is in 0..15. -/
def Instr.wellFormed : Instr → Bool
  | .qr => true
  | .aqr x y z w => x.inRange && y.inRange && z.inRange && w.inRange
  | .get i => i.inRange
  | .set i => i.inRange

/-- An index operand an assembler can encode: 0..255 (R73). -/
def indexEncodable (i : Nat) : Bool := decide (i ≤ 255)

/-- A word operand an assembler can encode: 0..2^32-1 (R8, R73). -/
def wordEncodable (v : Nat) : Bool := decide (v < 2 ^ 32)

/-- The assembler must accept the line: every operand can be encoded (R73). Indices 16..255 are accepted, "so that
the fault path can be tested". -/
def AsmLine.wellFormed : AsmLine → Bool
  | .qr a b c d => wordEncodable a && wordEncodable b && wordEncodable c && wordEncodable d
  | .aqr x y z w => indexEncodable x && indexEncodable y && indexEncodable z && indexEncodable w
  | .get i => indexEncodable i
  | .set i v => indexEncodable i && wordEncodable v
  | .ldst ws => decide (ws.length = 16) && ws.all wordEncodable
  | .colround | .diaground | .dblround | .permute20 | .rdst => true

end Sys2Proof
end

