-- ==== Sys2Proof/Machine/Assembler.lean ====
section
/-! DEFINITION. The assembler of the host: a line to its commands (spec/30_encoding.md R73, R74), and the reading of a
line from its characters. -/

namespace Sys2Proof.Machine

/-- The sixteen words of an `LDST` line. -/
def ldstWords (ws : List Nat) : Vector Word 16 := Vector.ofFn fun i : Fin 16 => BitVec.ofNat 32 (ws.getD i.1 0)

/-- The commands of a line whose operands can be encoded (R73); a pseudo-instruction is its expansion (R74). Ignored
lanes are zero. -/
def expandLine : AsmLine → List Command
  | .qr a b c d =>
    [⟨encode .qr, busOf (BitVec.ofNat 32 a) (BitVec.ofNat 32 b) (BitVec.ofNat 32 c) (BitVec.ofNat 32 d)⟩]
  | .aqr x y z w =>
    [⟨encode (.aqr (BitVec.ofNat 8 x) (BitVec.ofNat 8 y) (BitVec.ofNat 8 z) (BitVec.ofNat 8 w)), 0#128⟩]
  | .get i => [⟨encode (.get (BitVec.ofNat 8 i)), 0#128⟩]
  | .set i v => [⟨encode (.set (BitVec.ofNat 8 i)), busOfWord (BitVec.ofNat 32 v)⟩]
  | .colround => colround
  | .diaground => diaground
  | .dblround => dblround
  | .permute20 => permute20
  | .ldst ws => ldst (ldstWords ws)
  | .rdst => rdst

/-- The assembler: it refuses a line with an operand that cannot be encoded (R73). -/
def assemble (l : AsmLine) : Option (List Command) := if l.wellFormed then some (expandLine l) else none

/-- The value of a decimal digit. -/
def decDigit (c : Char) : Option Nat :=
  let n := c.toNat
  if 48 ≤ n ∧ n ≤ 57 then some (n - 48) else none

/-- The value of a hexadecimal digit, of either case. -/
def hexDigit (c : Char) : Option Nat :=
  let n := c.toNat
  if 97 ≤ n ∧ n ≤ 102 then some (n - 87)
  else if 65 ≤ n ∧ n ≤ 70 then some (n - 55)
  else decDigit c

/-- A number read on from `acc` in the given base; none at a character that is no digit. -/
def readDigits (base : Nat) (digit : Char → Option Nat) : Nat → List Char → Option Nat
  | acc, [] => some acc
  | acc, c :: cs =>
    match digit c with
    | some d => readDigits base digit (base * acc + d) cs
    | none => none

/-- A number in `0x` hexadecimal (R73). -/
def readHex : List Char → Option Nat
  | '0' :: 'x' :: c :: cs => readDigits 16 hexDigit 0 (c :: cs)
  | _ => none

/-- An index operand, "in decimal or `0x` hexadecimal" (R73). -/
def readIndex (cs : List Char) : Option Nat :=
  match readHex cs with
  | some n => some n
  | none =>
    match cs with
    | [] => none
    | c :: cs => readDigits 10 decDigit 0 (c :: cs)

/-- The pieces of an operand list between its commas, without their spaces (log 20). -/
def splitOperands : List Char → List (List Char)
  | [] => [[]]
  | ',' :: cs => [] :: splitOperands cs
  | ' ' :: cs => splitOperands cs
  | c :: cs =>
    match splitOperands cs with
    | [] => [[c]]
    | p :: ps => (c :: p) :: ps

/-- The mnemonic of a line, up to its first space, and what follows. -/
def splitMnemonic : List Char → List Char × List Char
  | [] => ([], [])
  | ' ' :: cs => ([], cs)
  | c :: cs => (c :: (splitMnemonic cs).1, (splitMnemonic cs).2)

/-- Every element read, or none. -/
def readAll (f : List Char → Option Nat) : List (List Char) → Option (List Nat)
  | [] => some []
  | p :: ps =>
    match f p, readAll f ps with
    | some n, some ns => some (n :: ns)
    | _, _ => none

/-- A line of the assembler read from its characters; none where it is not of one of the forms of R73 and R74. -/
def readLine (cs : List Char) : Option AsmLine :=
  let m := (splitMnemonic cs).1
  let ops := splitOperands (splitMnemonic cs).2
  if m = ['Q', 'R'] then
    match readAll readHex ops with
    | some [a, b, c, d] => some (.qr a b c d)
    | _ => none
  else if m = ['A', 'Q', 'R'] then
    match readAll readIndex ops with
    | some [x, y, z, w] => some (.aqr x y z w)
    | _ => none
  else if m = ['G', 'E', 'T'] then
    match readAll readIndex ops with
    | some [i] => some (.get i)
    | _ => none
  else if m = ['S', 'E', 'T'] then
    match ops with
    | [i, v] =>
      match readIndex i, readHex v with
      | some i, some v => some (.set i v)
      | _, _ => none
    | _ => none
  else if m = ['L', 'D', 'S', 'T'] then (readAll readHex ops).map .ldst
  else if ops = [[]] then
    if m = ['C', 'O', 'L', 'R', 'O', 'U', 'N', 'D'] then some .colround
    else if m = ['D', 'I', 'A', 'G', 'R', 'O', 'U', 'N', 'D'] then some .diaground
    else if m = ['D', 'B', 'L', 'R', 'O', 'U', 'N', 'D'] then some .dblround
    else if m = ['P', 'E', 'R', 'M', 'U', 'T', 'E', '2', '0'] then some .permute20
    else if m = ['R', 'D', 'S', 'T'] then some .rdst
    else none
  else none

end Sys2Proof.Machine
end

