-- ==== Sys2Proof/Safety.lean ====
section
/-! DEFINITION. What counts as a good state and a good run, in the terms the statements use: the priority of the faults
(spec/60_exceptions.md R162), the invariant of the machine, a run of several steps (spec/70_reset_and_hazards.md R206),
and what the host can see of two runs (spec/10_state.md R31, R34, R36). -/

namespace Sys2Proof

/-- The index fields of the state words a command reads (R100 step 4). -/
def Instr.reads : Instr → List IdxField
  | .qr => []
  | .aqr x y z w => [x, y, z, w]
  | .get i => [i]
  | .set _ => []

/-- The index fields of the state words a command writes (R100 step 5). -/
def Instr.writes : Instr → List IdxField
  | .qr => []
  | .aqr x y z w => [x, y, z, w]
  | .get _ => []
  | .set i => [i]

end Sys2Proof

namespace Sys2Proof.Machine

/-- The word that an index field names has been written since the last reset (R25). -/
def readable (V : BitVec 16) (f : IdxField) : Bool := V.getLsbD f.toNat

/-- The fault a command word raises in a state whose valid bits are `V` and whose `FATAL` is 0, by the priority of
R162; none if the command ends Done. -/
def faultOf (V : BitVec 16) (cw : CmdWord) : Option Cause :=
  match decode cw with
  | .illegalOpcode => some .illegalOpcode
  | .illegalForm => some .illegalForm
  | .command i =>
    if i.wellFormed then
      if i.reads.all (readable V) then none else some .uninitRead
    else some .indexRange

/-- The fault registers tell the truth: they are 0 while `FATAL = 0` (R27, R28), and in the fatal state the recorded
word raises the recorded cause with the valid bits as they stand, since the failing command did not change them (R161). -/
def State.Inv (s : State) : Prop :=
  (s.FATAL = false → s.CAUSE = 0#4 ∧ s.FINFO = 0#40) ∧
  (s.FATAL = true → ∃ c, s.CAUSE = c.code ∧ faultOf s.V s.FINFO = some c)

/-- Every word of the state has been written since the last reset: the state is constructed (R24). -/
abbrev State.constructed (s : State) : Prop := s.V = 0xffff#16

/-- `n` steps of the machine, stopping at the first that has no next state. -/
def run : Nat → State → Host.Outcome State Fault Refusal
  | 0, s => .next s
  | n + 1, s =>
    match step s with
    | .next t => run n t
    | .fault r => .fault r
    | .refused r => .refused r

/-- Two states that the host cannot tell apart: all but the words of `S` with valid bit 0 agree (R36: "the unspecified
value is never observable"). -/
structure State.Alike (s t : State) : Prop where
  words : ∀ i : WordIdx, s.valid i = true → s.word i = t.word i
  V : s.V = t.V
  FATAL : s.FATAL = t.FATAL
  CAUSE : s.CAUSE = t.CAUSE
  FINFO : s.FINFO = t.FINFO
  CW : s.CW = t.CW
  CD : s.CD = t.CD
  pending : s.pending = t.pending
  responses : s.responses = t.responses
  resets : s.resets = t.resets

/-- Two answers that the host cannot tell apart. -/
def Answer.Alike : Answer → Answer → Prop
  | .next s, .next t => s.Alike t
  | .fault a, .fault b => a = b
  | .refused a, .refused b => a = b
  | _, _ => False

/-- Two states with the same architectural state (R20). -/
abbrev State.sameArch (s t : State) : Prop :=
  s.S = t.S ∧ s.V = t.V ∧ s.FATAL = t.FATAL ∧ s.CAUSE = t.CAUSE ∧ s.FINFO = t.FINFO

end Sys2Proof.Machine
end

