-- ==== Sys2Proof/Certificates/Slice0/Obligations.lean ====
section
/-! DEFINITION. The statements for the provers, each from the spec's numbered rules. -/

open Sys2Proof Sys2Proof.Machine

/-! ## Encoding -/

/-- Decoding the word of a command gives the command back, every operand at every value of its field (R61 to R64, R72). -/
def Obligations.DecodeReadsBackEveryEncodedCommand : Prop :=
  ∀ i : Instr, decode (encode i) = .command i

/-- A command word that decodes to a command is the one word of that command: no second word means the same (R61, R68,
R72). So what FINFO records of a decoded command names it completely. -/
def Obligations.EveryAcceptedWordIsTheWordOfItsCommand : Prop :=
  ∀ (cw : CmdWord) (i : Instr), decode cw = .command i → encode i = cw

/-- The words of spec/95_test_vectors.md section 2.8 decode as that table says. -/
def Obligations.TableOfSampleWordsDecodes : Prop :=
  decode 0x0100000000#40 = .command .qr ∧
  decode 0x020207080d#40 = .command (.aqr 2#8 7#8 8#8 13#8) ∧
  decode 0x02ffffffff#40 = .command (.aqr 255#8 255#8 255#8 255#8) ∧
  decode 0x0300000007#40 = .command (.get 7#8) ∧
  decode 0x03000000ff#40 = .command (.get 255#8) ∧
  decode 0x0400000000#40 = .command (.set 0#8) ∧
  decode 0x0400010000#40 = .illegalForm ∧
  decode 0x0100000100#40 = .illegalForm ∧
  decode 0x0000000000#40 = .illegalOpcode ∧
  decode 0x0602070810#40 = .illegalOpcode

/-- A row of the opcode table selects exactly the words that decode to its command; the rows exclude one another, and a
word that no row selects is no command (R75). -/
def Obligations.OpcodeTableSelectsWhatDecodes : Prop :=
  ∀ cw : CmdWord,
    (∀ i, decode cw = .command i →
      (opcodeTable.filter fun r => r.selects cw).map (fun r => r.mnemonic) = [i.mnemonic]) ∧
    (decode cw = .illegalOpcode ∨ decode cw = .illegalForm →
      (opcodeTable.filter fun r => r.selects cw) = [])

/-- How many command words decode to each command: 1, 2^32, 256 and 256, of which 16^4, 16 and 16 have every index in
range (R72). -/
def Obligations.CommandWordCounts : Prop :=
  Nat.card { cw : CmdWord // decode cw = .command .qr } = 1 ∧
  Nat.card { cw : CmdWord // ∃ x y z w, decode cw = .command (.aqr x y z w) } = 2 ^ 32 ∧
  Nat.card { cw : CmdWord // ∃ i, decode cw = .command (.get i) } = 256 ∧
  Nat.card { cw : CmdWord // ∃ i, decode cw = .command (.set i) } = 256 ∧
  Nat.card { cw : CmdWord // ∃ x y z w, decode cw = .command (.aqr x y z w) ∧
    x.toNat ≤ 15 ∧ y.toNat ≤ 15 ∧ z.toNat ≤ 15 ∧ w.toNat ≤ 15 } = 65536 ∧
  Nat.card { cw : CmdWord // ∃ i, decode cw = .command (.get i) ∧ i.toNat ≤ 15 } = 16 ∧
  Nat.card { cw : CmdWord // ∃ i, decode cw = .command (.set i) ∧ i.toNat ≤ 15 } = 16

/-! ## Word operations and the quarter-round -/

/-- Addition is the exact sum modulo 2^32, with the corner cases and the worked example of R80. -/
def Obligations.AdditionIsExactSumModulo : Prop :=
  (∀ p q : Word, (add32 p q).toNat = (p.toNat + q.toNat) % 2 ^ 32) ∧
  (∀ p : Word, add32 p 0#32 = p) ∧
  (∀ p q : Word, add32 p q = add32 q p) ∧
  add32 0xffffffff#32 1#32 = 0#32 ∧
  add32 0xffffffff#32 0xffffffff#32 = 0xfffffffe#32 ∧
  add32 0x80000000#32 0x80000000#32 = 0#32 ∧
  add32 0x7fffffff#32 1#32 = 0x80000000#32 ∧
  add32 0x77777777#32 0x01234567#32 = 0x789abcde#32

/-- Exclusive or, bit by bit (R81). The bit-level definition is one the spec marks as general knowledge (G1), and the
model's log entry 17 takes it over. -/
def Obligations.ExclusiveOrComparesBits : Prop :=
  (∀ (p q : Word) (k : Fin 32), (xor32 p q).getLsbD k.1 = true ↔ p.getLsbD k.1 ≠ q.getLsbD k.1) ∧
  (∀ p : Word, xor32 p 0#32 = p ∧ xor32 p p = 0#32 ∧ xor32 p 0xffffffff#32 = ~~~p)

/-- Left rotation is the document's formula on exact integers, and moves bit `(k - n) mod 32` to bit `k` (R82). -/
def Obligations.RotationMovesEveryBit : Prop :=
  (∀ (p : Word) (n : RotAmt),
    (rotl32 p n).toNat = ((p.toNat * 2 ^ n.1) ||| (p.toNat / 2 ^ (32 - n.1))) % 2 ^ 32 ∧
    ∀ k : Fin 32, (rotl32 p n).getLsbD k.1 = p.getLsbD ((k.1 + 32 - n.1) % 32)) ∧
  rotl32 0x7998bfda#32 ⟨7, by decide⟩ = 0xcc5fed3c#32

/-- Check T7 at the level of the model: rotation is invertible for the four amounts of the quarter-round, the outer
rotation by `32 - n` (R148). -/
def Obligations.RotationIsInvertible : Prop :=
  ∀ x : Word,
    rotl32 (rotl32 x ⟨7, by decide⟩) ⟨25, by decide⟩ = x ∧
    rotl32 (rotl32 x ⟨8, by decide⟩) ⟨24, by decide⟩ = x ∧
    rotl32 (rotl32 x ⟨12, by decide⟩) ⟨20, by decide⟩ = x ∧
    rotl32 (rotl32 x ⟨16, by decide⟩) ⟨16, by decide⟩ = x

/-- Two rotations are one by the sum of their amounts modulo 32, whenever that is an amount (R85, general form). -/
def Obligations.RotationsCompose : Prop :=
  ∀ (p : Word) (m n k : RotAmt), (m.1 + n.1) % 32 = k.1 → rotl32 (rotl32 p m) n = rotl32 p k

/-- The corner cases of rotation (R84): fixed words, single bits, the number of one bits, and the amounts 16 and 8. -/
def Obligations.RotationCornerCases : Prop :=
  (∀ n : RotAmt,
    rotl32 0#32 n = 0#32 ∧ rotl32 0xffffffff#32 n = 0xffffffff#32 ∧
    rotl32 1#32 n = BitVec.ofNat 32 (2 ^ n.1) ∧ rotl32 0x80000000#32 n = BitVec.ofNat 32 (2 ^ (n.1 - 1)) ∧
    ∀ p : Word, (Finset.univ.filter fun k : Fin 32 => (rotl32 p n).getLsbD k.1 = true).card
      = (Finset.univ.filter fun k : Fin 32 => p.getLsbD k.1 = true).card) ∧
  (∀ p : Word, rotl32 p ⟨16, by decide⟩ = p.extractLsb' 0 16 ++ p.extractLsb' 16 16) ∧
  (∀ p : Word, rotl32 p ⟨8, by decide⟩ = p.extractLsb' 0 24 ++ p.extractLsb' 24 8)

/-- The quarter-round with every intermediate value named: `a` and `c` change only by addition, `d` rotates by 16 and
then 8, `b` by 12 and then 7 (R91). -/
def Obligations.QuarterRoundByNamedIntermediates : Prop :=
  ∀ a0 b0 c0 d0 a1 b1 c1 d1 a2 b2 c2 d2 : Word,
    a1 = add32 a0 b0 → d1 = rotl32 (xor32 d0 a1) ⟨16, by decide⟩ →
    c1 = add32 c0 d1 → b1 = rotl32 (xor32 b0 c1) ⟨12, by decide⟩ →
    a2 = add32 a1 b1 → d2 = rotl32 (xor32 d1 a2) ⟨8, by decide⟩ →
    c2 = add32 c1 d2 → b2 = rotl32 (xor32 b1 c2) ⟨7, by decide⟩ →
    qr ⟨a0, b0, c0, d0⟩ = ⟨a2, b2, c2, d2⟩

/-- The quarter-round loses nothing: two different quadruples of words have different results. It rests on the order of
the twelve operations of R90 and on rotation being invertible (R85). -/
def Obligations.QuarterRoundLosesNothing : Prop :=
  ∀ p q : Quad, qr p = qr q → p = q

/-! ## Every command completes: the result of each -/

/-- QR: with `FATAL = 0` it ends Done, and its response carries the quarter-round of the four lanes of `CD`, `a` in lane
0; nothing else changes (R94, R66). -/
def Obligations.QrCompletes : Prop :=
  ∀ s : State, s.FATAL = false →
    ∃ (rd : BusData) (a b c d : Word), exec .qr s = .next { s with responses := s.responses ++ [rd] } ∧
      qr ⟨s.CD.extractLsb' 0 32, s.CD.extractLsb' 32 32, s.CD.extractLsb' 64 32, s.CD.extractLsb' 96 32⟩
        = ⟨a, b, c, d⟩ ∧
      rd.extractLsb' 0 32 = a ∧ rd.extractLsb' 32 32 = b ∧ rd.extractLsb' 64 32 = c ∧ rd.extractLsb' 96 32 = d

/-- AQR: with `FATAL = 0`, four indices in range and the four words written, it ends Done. The named words become the
quarter-round of the four old words; a word named by several fields gets the result of the last of them in the order x,
y, z, w; every other word keeps its value; the response is zero (R101, R102, R103, R104). -/
def Obligations.AqrCompletes : Prop :=
  ∀ (s : State) (x y z w : IdxField) (ix iy iz iw : WordIdx),
    s.FATAL = false → x.toNat = ix.1 → y.toNat = iy.1 → z.toNat = iz.1 → w.toNat = iw.1 →
    s.valid ix = true → s.valid iy = true → s.valid iz = true → s.valid iw = true →
    ∃ t : State, exec (.aqr x y z w) s = .next t ∧
      t = { s with S := t.S, responses := s.responses ++ [0#128] } ∧
      ∀ j : WordIdx, t.word j =
        let r := qr ⟨s.word ix, s.word iy, s.word iz, s.word iw⟩
        if j = iw then r.d else if j = iz then r.c else if j = iy then r.b else if j = ix then r.a else s.word j

/-- GET: with `FATAL = 0`, the index in range and the word written, it ends Done, responds the word in lane 0 with the
other lanes zero, and changes nothing else (R106). -/
def Obligations.GetCompletes : Prop :=
  ∀ (s : State) (i : IdxField) (n : WordIdx),
    s.FATAL = false → i.toNat = n.1 → s.valid n = true →
    ∃ rd : BusData, exec (.get i) s = .next { s with responses := s.responses ++ [rd] } ∧
      rd.extractLsb' 0 32 = s.word n ∧ rd.extractLsb' 32 96 = 0#96

/-- SET: with `FATAL = 0` and the index in range it ends Done whether or not the word was written before: the word becomes
lane 0 of `CD`, its valid bit 1, no other word and no other valid bit changes, the response is zero (R107). -/
def Obligations.SetCompletes : Prop :=
  ∀ (s : State) (i : IdxField) (n : WordIdx),
    s.FATAL = false → i.toNat = n.1 →
    ∃ t : State, exec (.set i) s = .next t ∧
      t = { s with S := t.S, V := t.V, responses := s.responses ++ [0#128] } ∧
      t.word n = s.CD.extractLsb' 0 32 ∧ t.valid n = true ∧
      ∀ j : WordIdx, j ≠ n → t.word j = s.word j ∧ t.valid j = s.valid j

/-- The document's domain is total: a command with valid indices on a constructed state ends Done, for every data value and
every content of `S` (R160, R169). -/
def Obligations.WellTypedCommandsAlwaysEndDone : Prop :=
  ∀ (i : Instr) (s : State), i.wellFormed = true → s.constructed → s.FATAL = false →
    ∃ t rd, exec i s = .next t ∧ t.FATAL = false ∧ t.V = s.V ∧ t.responses = s.responses ++ [rd]

/-! ## Frames -/

/-- QR and GET, in every form and every outcome: `S`, `V` and the model's record of the commands are unchanged; QR leaves
the fault registers too, and GET leaves them unless it raises the fatal fault, when it delivers no response (R94, R106,
R164). -/
def Obligations.ReadingCommandsChangeNoWord : Prop :=
  (∀ s t : State, exec .qr s = .next t →
    ∃ rd, t = { s with responses := s.responses ++ [rd] }) ∧
  (∀ (i : IdxField) (s t : State), exec (.get i) s = .next t →
    (∃ rd, t = { s with responses := s.responses ++ [rd] }) ∨
    (t = { s with FATAL := true, CAUSE := t.CAUSE, FINFO := t.FINFO }))

/-- AQR that ends Done does not interfere (R104): for all states and quadruples, every word whose index is not in the
quadruple keeps its value, and `V`, `FATAL`, `CAUSE` and `FINFO` are unchanged. -/
def Obligations.AqrDoesNotInterfere : Prop :=
  ∀ (s t : State) (x y z w : IdxField), exec (.aqr x y z w) s = .next t → t.FATAL = false →
    (∀ j : WordIdx, j.1 ≠ x.toNat → j.1 ≠ y.toNat → j.1 ≠ z.toNat → j.1 ≠ w.toNat → t.word j = s.word j) ∧
    t.V = s.V ∧ t.FATAL = s.FATAL ∧ t.CAUSE = s.CAUSE ∧ t.FINFO = s.FINFO

/-- The frame of SET, and of AQR in the outcomes that are not Done: SET changes at most the word and the valid bit its
index names, neither when it raises the fatal fault; an AQR that raises it changes no word and no valid bit; the record of
the commands is unchanged in every case (R107, R164). -/
def Obligations.WritingCommandsChangeOnlyWhatTheyName : Prop :=
  (∀ (i : IdxField) (s t : State), exec (.set i) s = .next t →
    (∀ j : WordIdx, j.1 ≠ i.toNat → t.word j = s.word j ∧ t.valid j = s.valid j) ∧
    (t.FATAL = false → t.CAUSE = s.CAUSE ∧ t.FINFO = s.FINFO) ∧
    (t.FATAL = true → t.S = s.S ∧ t.V = s.V ∧ t.responses = s.responses) ∧
    t.CW = s.CW ∧ t.CD = s.CD ∧ t.pending = s.pending ∧ t.resets = s.resets) ∧
  (∀ (x y z w : IdxField) (s t : State), exec (.aqr x y z w) s = .next t →
    (t.FATAL = true → t.S = s.S ∧ t.V = s.V ∧ t.responses = s.responses) ∧
    t.CW = s.CW ∧ t.CD = s.CD ∧ t.pending = s.pending ∧ t.resets = s.resets)

/-! ## A step runs the decoded command -/

/-- An accepted command whose word decodes is executed with its word and data sampled, the host's list moved on (R60,
R100). That `CW`, `CD` and `pending` are fields is the model's choice (log 1, 2). -/
def Obligations.StepRunsTheDecodedCommand : Prop :=
  ∀ (s : State) (c : Command) (rest : List HostEvent) (i : Instr),
    s.FATAL = false → s.pending = .issue c :: rest → decode c.word = .command i →
    step s = exec i { s with CW := c.word, CD := c.data, pending := rest }

/-! ## Faults -/

/-- A command with an undefined opcode raises Fatal(ILLEGAL_OPCODE), whatever its other fields and data hold: fatal entry
with cause 1 and nothing else (R67). -/
def Obligations.UndefinedOpcodeIsFatal : Prop :=
  ∀ (s : State) (c : Command) (rest : List HostEvent),
    s.FATAL = false → s.pending = .issue c :: rest →
    (opField c.word = 0x00#8 ∨ 5 ≤ (opField c.word).toNat) →
    step s = .next { s with CW := c.word, CD := c.data, pending := rest,
                            FATAL := true, CAUSE := 1#4, FINFO := c.word }

/-- A defined opcode with a non-zero reserved field raises Fatal(ILLEGAL_FORM), whatever its index is: in format N the
fields x, y, z, w, in format I the fields x, y, z (R68). -/
def Obligations.NonzeroReservedFieldIsFatal : Prop :=
  ∀ (s : State) (c : Command) (rest : List HostEvent),
    s.FATAL = false → s.pending = .issue c :: rest →
    ((opField c.word = 0x01#8 ∧
        (xField c.word ≠ 0#8 ∨ yField c.word ≠ 0#8 ∨ zField c.word ≠ 0#8 ∨ wField c.word ≠ 0#8)) ∨
      ((opField c.word = 0x03#8 ∨ opField c.word = 0x04#8) ∧
        (xField c.word ≠ 0#8 ∨ yField c.word ≠ 0#8 ∨ zField c.word ≠ 0#8))) →
    step s = .next { s with CW := c.word, CD := c.data, pending := rest,
                            FATAL := true, CAUSE := 2#4, FINFO := c.word }

/-- One range test for all three commands that carry an index: an index above 15 raises Fatal(INDEX_RANGE), whatever the
valid bits are, and with every index in 0..15 that fault is not raised (R108). -/
def Obligations.IndexAboveFifteenIsFatal : Prop :=
  (∀ (s : State) (x y z w : IdxField), s.FATAL = false →
    ((15 < x.toNat ∨ 15 < y.toNat ∨ 15 < z.toNat ∨ 15 < w.toNat) ↔
      exec (.aqr x y z w) s = .next { s with FATAL := true, CAUSE := 3#4, FINFO := s.CW })) ∧
  (∀ (s : State) (i : IdxField), s.FATAL = false →
    (15 < i.toNat ↔ exec (.get i) s = .next { s with FATAL := true, CAUSE := 3#4, FINFO := s.CW })) ∧
  (∀ (s : State) (i : IdxField), s.FATAL = false →
    (15 < i.toNat ↔ exec (.set i) s = .next { s with FATAL := true, CAUSE := 3#4, FINFO := s.CW }))

/-- Reading a word that nothing has written since the last reset raises Fatal(UNINIT_READ), by AQR in any of its four
operands and by GET; SET never does (R25, R101, R106, R107). -/
def Obligations.ReadingAnUnwrittenWordIsFatal : Prop :=
  (∀ (s : State) (x y z w : IdxField) (ix iy iz iw : WordIdx),
    s.FATAL = false → x.toNat = ix.1 → y.toNat = iy.1 → z.toNat = iz.1 → w.toNat = iw.1 →
    (s.valid ix = false ∨ s.valid iy = false ∨ s.valid iz = false ∨ s.valid iw = false) →
    exec (.aqr x y z w) s = .next { s with FATAL := true, CAUSE := 4#4, FINFO := s.CW }) ∧
  (∀ (s : State) (i : IdxField) (n : WordIdx), s.FATAL = false → i.toNat = n.1 → s.valid n = false →
    exec (.get i) s = .next { s with FATAL := true, CAUSE := 4#4, FINFO := s.CW }) ∧
  (∀ (s t : State) (i : IdxField), exec (.set i) s = .next t → t.FATAL = true → t.CAUSE ≠ 4#4)

/-- A command raises at most one fault, by the fixed priority opcode, form, range, valid: the step takes fatal entry with
the cause that priority gives and the word presented, or, where it gives none, ends Done (R162). -/
def Obligations.FirstFailingCheckWins : Prop :=
  ∀ (s : State) (c : Command) (rest : List HostEvent),
    s.FATAL = false → s.pending = .issue c :: rest →
    (∀ e, faultOf s.V c.word = some e →
      step s = .next { s with CW := c.word, CD := c.data, pending := rest,
                              FATAL := true, CAUSE := e.code, FINFO := c.word }) ∧
    (faultOf s.V c.word = none → ∃ t, step s = .next t ∧ t.FATAL = false)

/-- Fatal entry writes `FATAL`, `CAUSE` (the cause, 1 to 4) and `FINFO` (all 40 bits of the failing word) and nothing else: no
word, no valid bit, no response; the outputs show the new values and the engine stops accepting (R163). `CW`, `CD` and
`pending` are the record of the command presented (log 1, 2). -/
def Obligations.FatalEntryWritesOnlyTheFaultRegisters : Prop :=
  ∀ s t : State, step s = .next t → s.FATAL = false → t.FATAL = true →
    ∃ c rest e, s.pending = .issue c :: rest ∧ faultOf s.V c.word = some e ∧
      t = { s with CW := c.word, CD := c.data, pending := rest,
                   FATAL := true, CAUSE := e.code, FINFO := c.word } ∧
      (t.CAUSE = 1#4 ∨ t.CAUSE = 2#4 ∨ t.CAUSE = 3#4 ∨ t.CAUSE = 4#4) ∧
      t.outputs = { fatal := true, cause := e.code, finfo := c.word, vmask := s.V, cmdReady := false }

/-- While `FATAL = 1`, `cmd_ready` is 0 and no command is accepted, legal or illegal: it has no step, so no state change, no
response and no second fault, and the host that applies no reset is stuck (R166). -/
def Obligations.NoCommandIsAcceptedInTheFatalState : Prop :=
  (∀ s : State, s.FATAL = true → s.outputs.cmdReady = false) ∧
  (∀ (i : Instr) (s : State), s.FATAL = true → exec i s = .fault .notAccepted) ∧
  (∀ (s : State) (cs : List Command), s.FATAL = true → cs ≠ [] → s.pending = issueAll cs →
    step s = .fault .notAccepted)

/-- In the fatal state the host's next Reset is enabled whatever commands it presented before, which are never taken. That a
command not taken does not hold up the Reset behind it in the host's list is the model's choice (log 5). -/
def Obligations.ResetIsNotHeldUpByUntakenCommands : Prop :=
  ∀ (s : State) (cs : List Command) (rest : List HostEvent), s.FATAL = true →
    s.pending = issueAll cs ++ .reset :: rest →
    ∃ t, step s = .next t ∧ t.FATAL = false ∧ t.CAUSE = 0#4 ∧ t.FINFO = 0#40 ∧ t.V = 0#16 ∧
      t.pending = rest ∧ t.responses = s.responses

/-- The fatal state is frozen, and its only exit is the reset event, which clears `FATAL`, `CAUSE`, `FINFO` and all valid
bits: a step from it either changes nothing at all, or is a Reset that the host applied (R165, R167). That a step with
nothing presented is a next state is the model's choice (log 6). -/
def Obligations.OnlyResetLeavesTheFatalState : Prop :=
  ∀ s t : State, s.FATAL = true → step s = .next t →
    t = s ∨
    (HostEvent.reset ∈ s.pending ∧ t.FATAL = false ∧ t.CAUSE = 0#4 ∧ t.FINFO = 0#40 ∧ t.V = 0#16 ∧
      t.responses = s.responses)

/-! ## Reset -/

/-- The Reset event, in any state, the fatal one included: `V`, `FATAL`, `CAUSE` and `FINFO` become 0, the engine is ready
for a command, and no word can be read: GET and AQR of any indices raise a fault (R36, R190). -/
def Obligations.ResetEventClearsAndHides : Prop :=
  ∀ (s : State) (rest : List HostEvent), s.pending = .reset :: rest →
    ∃ t, step s = .next t ∧ t.V = 0#16 ∧ t.FATAL = false ∧ t.CAUSE = 0#4 ∧ t.FINFO = 0#40 ∧
      t.pending = rest ∧ t.responses = s.responses ∧ t.outputs.cmdReady = true ∧
      (∀ i : IdxField, ∃ u, exec (.get i) t = .next u ∧ u.FATAL = true ∧ u.responses = t.responses) ∧
      ∀ x y z w : IdxField, ∃ u, exec (.aqr x y z w) t = .next u ∧ u.FATAL = true ∧ u.responses = t.responses

/-- The state a run starts from has the reset values the spec gives. The words of `S`, which the spec gives no value, are
not part of this statement (log 7). -/
def Obligations.ResetStateHasTheSpecifiedValues : Prop :=
  State.reset.V = 0#16 ∧ State.reset.FATAL = false ∧ State.reset.CAUSE = 0#4 ∧ State.reset.FINFO = 0#40 ∧
  State.reset.outputs.cmdReady = true

/-! ## Rules of the whole machine -/

/-- Every step keeps the invariant: the fault registers are 0 while `FATAL = 0`; in the fatal state `CAUSE` is one of 1 to
4 and can be recomputed from `FINFO` and the valid bits, which the failing command did not change (R27, R28, R161). -/
def Obligations.StepKeepsTheFaultRegistersTruthful : Prop :=
  ∀ s t : State, s.Inv → step s = .next t → t.Inv

/-- The invariant holds at reset. -/
def Obligations.ResetStateHasTruthfulFaultRegisters : Prop := State.reset.Inv

/-- In a step that is no Reset, no valid bit is cleared; one is set only by a SET of its word; and a word changes only by a
SET or an AQR that names it (R23, R25). -/
def Obligations.WordsChangeOnlyByCommandsThatNameThem : Prop :=
  ∀ (s t : State) (j : WordIdx), step s = .next t → t.resets = s.resets →
    (s.valid j = true → t.valid j = true) ∧
    (s.valid j = false → t.valid j = true →
      ∃ c rest, s.pending = .issue c :: rest ∧ decode c.word = .command (.set (BitVec.ofNat 8 j.1))) ∧
    (t.word j ≠ s.word j →
      ∃ c rest, s.pending = .issue c :: rest ∧
        (decode c.word = .command (.set (BitVec.ofNat 8 j.1)) ∨
          ∃ x y z w, decode c.word = .command (.aqr x y z w) ∧
            (x.toNat = j.1 ∨ y.toNat = j.1 ∨ z.toNat = j.1 ∨ w.toNat = j.1)))

/-- No hidden state: the response to a command and the state after it are a function of the architectural state, the
command word and the command data; the rest of the two states (their history) may differ at will (R34). -/
def Obligations.NoHiddenState : Prop :=
  ∀ (s₁ s₂ : State) (c : Command) (r₁ r₂ : List HostEvent),
    s₁.sameArch s₂ → s₁.FATAL = false → s₁.pending = .issue c :: r₁ → s₂.pending = .issue c :: r₂ →
    ∃ t₁ t₂ rd, step s₁ = .next t₁ ∧ step s₂ = .next t₂ ∧ t₁.sameArch t₂ ∧
      t₁.responses = s₁.responses ++ rd ∧ t₂.responses = s₂.responses ++ rd ∧ rd.length ≤ 1

/-- The unspecified words of `S` are never observable: two states that differ only in words whose valid bit is 0 stay so
along every run, with the same responses and the same outputs (R36). -/
def Obligations.UnwrittenWordsAreNeverObserved : Prop :=
  ∀ (n : Nat) (s t : State), s.Alike t → Answer.Alike (run n s) (run n t)

/-- The ignored lanes of `CD` have no effect on the outcome, the response or any state, and are not copied into `FINFO`:
all lanes for AQR and GET, lanes 1 to 3 for SET (R69). -/
def Obligations.IgnoredLanesHaveNoEffect : Prop :=
  ∀ (s t : State) (i : Instr) (d : BusData), exec i s = .next t →
    ((∃ x y z w, i = .aqr x y z w) ∨ (∃ n, i = .get n) ∨
      (∃ n, i = .set n ∧ d.extractLsb' 0 32 = s.CD.extractLsb' 0 32)) →
    exec i { s with CD := d } = .next { t with CD := d }

/-- Every command that ends Done delivers exactly one response, with the lanes of its command; one that ends Fatal
delivers none (R66). -/
def Obligations.OneResponsePerDoneCommand : Prop :=
  ∀ (s t : State) (c : Command) (rest : List HostEvent),
    s.FATAL = false → s.pending = .issue c :: rest → step s = .next t →
    (t.FATAL = true → t.responses = s.responses) ∧
    (t.FATAL = false → ∃ rd : BusData, t.responses = s.responses ++ [rd] ∧
      (decode c.word = .command .qr →
        (⟨rd.extractLsb' 0 32, rd.extractLsb' 32 32, rd.extractLsb' 64 32, rd.extractLsb' 96 32⟩ : Quad)
          = qr ⟨c.data.extractLsb' 0 32, c.data.extractLsb' 32 32, c.data.extractLsb' 64 32,
                c.data.extractLsb' 96 32⟩) ∧
      (∀ i n, decode c.word = .command (.get i) → i.toNat = (n : WordIdx).1 →
        rd.extractLsb' 0 32 = s.word n ∧ rd.extractLsb' 32 96 = 0#96) ∧
      (∀ i, decode c.word = .command (.set i) → rd = 0#128) ∧
      (∀ x y z w, decode c.word = .command (.aqr x y z w) → rd = 0#128))

/-- A GET returns the value written by the latest earlier command that wrote the word, SET or AQR (R48): after that command
and whatever commands follow that do not write the word, the response is lane 0 of the SET, or the word of the AQR's
quarter-round on the words before it that belongs to the last field naming it (R103). -/
def Obligations.GetReturnsTheLatestWrite : Prop :=
  ∀ (s t : State) (i : WordIdx) (c : Command) (v : Word) (cs : List Command),
    s.FATAL = false →
    s.pending = issueAll (c :: cs ++ [getCommand i]) →
    ((decode c.word = .command (.set (idxField i)) ∧ v = c.data.extractLsb' 0 32) ∨
      ∃ ix iy iz iw : WordIdx,
        decode c.word = .command (.aqr (idxField ix) (idxField iy) (idxField iz) (idxField iw)) ∧
        i ∈ [ix, iy, iz, iw] ∧
        v = let r := qr ⟨s.word ix, s.word iy, s.word iz, s.word iw⟩
            if i = iw then r.d else if i = iz then r.c else if i = iy then r.b else r.a) →
    (∀ c' ∈ cs, ∀ ins, decode c'.word = .command ins → idxField i ∉ ins.writes) →
    run (cs.length + 2) s = .next t → t.FATAL = false →
    ∃ rs, t.responses = rs ++ [v.setWidth 128]

/-- Idempotency: a GET repeated delivers the same word again and changes no architectural state; a SET repeated leaves the
same architectural state as once (R46). -/
def Obligations.RepeatingGetOrSetChangesNothing : Prop :=
  (∀ (i : IdxField) (s t : State), exec (.get i) s = .next t → t.FATAL = false →
    t.sameArch s ∧ ∃ rd u, t.responses = s.responses ++ [rd] ∧ exec (.get i) t = .next u ∧ u.sameArch s ∧
      u.responses = t.responses ++ [rd]) ∧
  (∀ (i : IdxField) (s t : State), exec (.set i) s = .next t → t.FATAL = false →
    ∃ u, exec (.set i) t = .next u ∧ u.sameArch t)

/-- A finite list of commands presented to a non-fatal engine always finishes: every command ends Done, one response each,
or one ends Fatal, the ones before it having ended Done, and the rest are never accepted (R205). -/
def Obligations.EveryCommandListFinishes : Prop :=
  ∀ (cs : List Command) (s : State), s.FATAL = false → s.pending = issueAll cs →
    (∃ t rs, run cs.length s = .next t ∧ t.FATAL = false ∧ t.pending = [] ∧
      t.responses = s.responses ++ rs ∧ rs.length = cs.length) ∨
    (∃ k t rs, k < cs.length ∧ run (k + 1) s = .next t ∧ t.FATAL = true ∧
      t.pending = issueAll (cs.drop (k + 1)) ∧ t.responses = s.responses ++ rs ∧ rs.length = k ∧
      (k + 1 < cs.length → step t = .fault .notAccepted))

/-! ## Repeated indices, and commands that commute -/

/-- The write-back order matters only where a quadruple repeats an index: with four distinct indices every order of the
four writes gives the same state (R103, decision D13; log 9). -/
def Obligations.WriteOrderMattersOnlyForRepeatedIndices : Prop :=
  ∀ (order : List Slot) (ix : IdxQuad) (r : Quad) (s : State),
    order.Perm [.x, .y, .z, .w] → [ix.x, ix.y, ix.z, ix.w].Nodup →
    writeBack order ix r s = writeBack Config.overlapWriteOrder ix r s

/-- Two AQR commands whose index sets are disjoint commute: either order ends Done in the same state (R129). -/
def Obligations.DisjointQuarterRoundsCommute : Prop :=
  ∀ (s t u : State) (x y z w x' y' z' w' : IdxField),
    (∀ f ∈ [x, y, z, w], f ∉ [x', y', z', w']) →
    exec (.aqr x y z w) s = .next t → t.FATAL = false →
    exec (.aqr x' y' z' w') t = .next u → u.FATAL = false →
    ∃ t', exec (.aqr x' y' z' w') s = .next t' ∧ exec (.aqr x y z w) t' = .next u

/-- Order inside one round does not matter: all 24 orders of the four commands of a column round, or of a diagonal round,
leave the same words (R129). -/
def Obligations.OrderInsideARoundDoesNotMatter : Prop :=
  ∀ (s : State) (cs ds : List Command) (rest : List HostEvent),
    s.FATAL = false → s.constructed → ds = colround ∨ ds = diaground → cs.Perm ds →
    ∃ t u, run 4 { s with pending := issueAll cs ++ rest } = .next t ∧
      run 4 { s with pending := issueAll ds ++ rest } = .next u ∧ t.sameArch u

/-! ## The schedule and the pseudo-instructions -/

/-- The schedule: every quadruple has four distinct indices, the four of a table are disjoint and together name each of the
sixteen words exactly once (R120); entry `k` of COLQ is column `k`, entry `k` of DIAGQ the diagonal from column `k` (R121). -/
def Obligations.ScheduleTablesCoverTheMatrix : Prop :=
  (colq.flatMap fun q => [q.x, q.y, q.z, q.w]).Perm (List.finRange 16) ∧
  (diagq.flatMap fun q => [q.x, q.y, q.z, q.w]).Perm (List.finRange 16) ∧
  (∀ k : Fin 4, colq[k.1]? = some ⟨matrixIdx 0 k, matrixIdx 1 k, matrixIdx 2 k, matrixIdx 3 k⟩) ∧
  (∀ k : Fin 4,
    diagq[k.1]? = some ⟨matrixIdx 0 k, matrixIdx 1 (k + 1), matrixIdx 2 (k + 2), matrixIdx 3 (k + 3)⟩)

/-- COLROUND on a constructed state: four commands, each Done; column `k` becomes the quarter-round of its old four words;
`V` and the fault registers do not change (R123). -/
def Obligations.ColumnRoundMixesEveryColumn : Prop :=
  ∀ (s : State) (rest : List HostEvent),
    s.FATAL = false → s.constructed → s.pending = issueAll colround ++ rest →
    ∃ t, run 4 s = .next t ∧ t.FATAL = false ∧ t.V = s.V ∧ t.CAUSE = s.CAUSE ∧ t.FINFO = s.FINFO ∧
      t.pending = rest ∧ t.responses = s.responses ++ List.replicate 4 0#128 ∧
      ∀ k : Fin 4,
        (⟨t.word (matrixIdx 0 k), t.word (matrixIdx 1 k), t.word (matrixIdx 2 k), t.word (matrixIdx 3 k)⟩ : Quad)
          = qr ⟨s.word (matrixIdx 0 k), s.word (matrixIdx 1 k), s.word (matrixIdx 2 k), s.word (matrixIdx 3 k)⟩

/-- DIAGROUND on a constructed state: the same with the diagonals in place of the columns (R124). -/
def Obligations.DiagonalRoundMixesEveryDiagonal : Prop :=
  ∀ (s : State) (rest : List HostEvent),
    s.FATAL = false → s.constructed → s.pending = issueAll diaground ++ rest →
    ∃ t, run 4 s = .next t ∧ t.FATAL = false ∧ t.V = s.V ∧ t.CAUSE = s.CAUSE ∧ t.FINFO = s.FINFO ∧
      t.pending = rest ∧ t.responses = s.responses ++ List.replicate 4 0#128 ∧
      ∀ k : Fin 4,
        (⟨t.word (matrixIdx 0 k), t.word (matrixIdx 1 (k + 1)), t.word (matrixIdx 2 (k + 2)),
            t.word (matrixIdx 3 (k + 3))⟩ : Quad)
          = qr ⟨s.word (matrixIdx 0 k), s.word (matrixIdx 1 (k + 1)), s.word (matrixIdx 2 (k + 2)),
                s.word (matrixIdx 3 (k + 3))⟩

/-- COLROUND or DIAGROUND on a state that is not constructed: the first AQR that addresses an unwritten word raises
Fatal(UNINIT_READ), the ones before it have taken effect, and the rest are not accepted (R123, R124). -/
def Obligations.RoundOnUnwrittenWordsIsFatal : Prop :=
  ∀ (s : State) (qs : List IdxQuad), s.FATAL = false → ¬ s.constructed → qs = colq ∨ qs = diagq →
    s.pending = issueAll (qs.map aqrCommand) →
    ∃ (k : Nat) (q : IdxQuad) (t : State), qs[k]? = some q ∧
      (s.valid q.x && s.valid q.y && s.valid q.z && s.valid q.w) = false ∧
      (∀ p ∈ qs.take k, (s.valid p.x && s.valid p.y && s.valid p.z && s.valid p.w) = true) ∧
      run (k + 1) s = .next t ∧ t.FATAL = true ∧ t.CAUSE = 4#4 ∧ t.FINFO = (aqrCommand q).word ∧
      t.S = quartersOn (qs.take k) s.S ∧ t.V = s.V ∧ t.responses = s.responses ++ List.replicate k 0#128 ∧
      (k < 3 → step t = .fault .notAccepted)

/-- PERMUTE20 on a constructed state: eighty commands, each Done; the words become those of ten double rounds, a column
round first in each; nothing is added back (R125, R126). -/
def Obligations.PermuteRunsTenDoubleRounds : Prop :=
  ∀ (s : State) (rest : List HostEvent),
    s.FATAL = false → s.constructed → s.pending = issueAll permute20 ++ rest →
    ∃ t, run 80 s = .next t ∧ t.FATAL = false ∧ t.V = s.V ∧ t.pending = rest ∧
      t.responses = s.responses ++ List.replicate 80 0#128 ∧ t.S = doubleRoundsOn 10 s.S

/-- LDST on any state that is not fatal, written or not: sixteen commands, each Done; the words are those given and every
valid bit is 1 (R127). -/
def Obligations.LoadConstructsTheState : Prop :=
  ∀ (s : State) (ws : Vector Word 16) (rest : List HostEvent),
    s.FATAL = false → s.pending = issueAll (ldst ws) ++ rest →
    ∃ t, run 16 s = .next t ∧ t.FATAL = false ∧ t.V = 0xffff#16 ∧ t.S = ws ∧ t.pending = rest ∧
      t.responses = s.responses ++ List.replicate 16 0#128

/-- RDST on a constructed state: sixteen responses, the `i`-th carrying `S[i]` in lane 0, and no architectural state
changes (R128). -/
def Obligations.ReadOutDeliversEveryWord : Prop :=
  ∀ (s : State) (rest : List HostEvent),
    s.FATAL = false → s.constructed → s.pending = issueAll rdst ++ rest →
    ∃ t, run 16 s = .next t ∧ t.sameArch s ∧ t.pending = rest ∧
      t.responses = s.responses ++ s.S.toList.map (fun v => v.setWidth 128)

/-- The lifecycle of the state (R24): constructed from sixteen words, permuted, read out. From any state that is not fatal,
the responses to the read-out carry the words of ten double rounds on the words loaded. -/
def Obligations.LoadPermuteReadOutDeliversThePermutation : Prop :=
  ∀ (s : State) (ws : Vector Word 16),
    s.FATAL = false → s.pending = issueAll (ldst ws ++ permute20 ++ rdst) →
    ∃ t, run 112 s = .next t ∧ t.FATAL = false ∧ t.pending = [] ∧
      t.responses = s.responses ++ List.replicate 96 0#128 ++
        (doubleRoundsOn 10 ws).toList.map (fun v => v.setWidth 128)

/-! ## The assembler -/

/-- The assembler on the lines of the four commands: it refuses an index above 255, accepts 16..255, and gives each line the
`CW` and `CD` of the table of R73. That the lanes which the table calls "any" are zero is the model's choice (log 20). -/
def Obligations.AssemblerEncodesEveryCommandLine : Prop :=
  (∀ a b c d : Nat, a < 2 ^ 32 → b < 2 ^ 32 → c < 2 ^ 32 → d < 2 ^ 32 →
    ∃ cd : BusData, assemble (.qr a b c d) = some [⟨0x0100000000#40, cd⟩] ∧
      cd.toNat = d * 2 ^ 96 + c * 2 ^ 64 + b * 2 ^ 32 + a) ∧
  (∀ x y z w : Nat, x ≤ 255 → y ≤ 255 → z ≤ 255 → w ≤ 255 →
    ∃ cw : CmdWord, assemble (.aqr x y z w) = some [⟨cw, 0#128⟩] ∧
      cw.toNat = 2 * 2 ^ 32 + x * 2 ^ 24 + y * 2 ^ 16 + z * 2 ^ 8 + w) ∧
  (∀ i : Nat, i ≤ 255 → ∃ cw : CmdWord, assemble (.get i) = some [⟨cw, 0#128⟩] ∧ cw.toNat = 3 * 2 ^ 32 + i) ∧
  (∀ i v : Nat, i ≤ 255 → v < 2 ^ 32 →
    ∃ (cw : CmdWord) (cd : BusData), assemble (.set i v) = some [⟨cw, cd⟩] ∧
      cw.toNat = 4 * 2 ^ 32 + i ∧ cd.toNat = v) ∧
  (∀ x y z w : Nat, 255 < x ∨ 255 < y ∨ 255 < z ∨ 255 < w → assemble (.aqr x y z w) = none) ∧
  (∀ i : Nat, 255 < i → assemble (.get i) = none) ∧
  (∀ i v : Nat, 255 < i → assemble (.set i v) = none)

/-- The assembler on the lines of the six pseudo-instructions (R74, R123 to R128): each gives the fixed list of commands the
spec writes out for it, and LDST takes exactly sixteen words. That the lanes which R73 calls "any" are zero is the model's
choice (log 20). -/
def Obligations.AssemblerExpandsEveryPseudoInstruction : Prop :=
  let column : List Command :=
    [⟨0x020004080c#40, 0#128⟩, ⟨0x020105090d#40, 0#128⟩, ⟨0x0202060a0e#40, 0#128⟩, ⟨0x0203070b0f#40, 0#128⟩]
  let diagonal : List Command :=
    [⟨0x0200050a0f#40, 0#128⟩, ⟨0x0201060b0c#40, 0#128⟩, ⟨0x020207080d#40, 0#128⟩, ⟨0x020304090e#40, 0#128⟩]
  assemble .colround = some column ∧
  assemble .diaground = some diagonal ∧
  assemble .dblround = some (column ++ diagonal) ∧
  assemble .permute20 = some (List.replicate 10 (column ++ diagonal)).flatten ∧
  (∀ ws : List Nat, ws.length = 16 → (∀ v ∈ ws, v < 2 ^ 32) →
    ∃ cs : List Command, assemble (.ldst ws) = some cs ∧ cs.length = 16 ∧
      ∀ i : Fin 16, ∃ c : Command, cs[i.1]? = some c ∧ c.word.toNat = 4 * 2 ^ 32 + i.1 ∧
        ws[i.1]? = some c.data.toNat) ∧
  (∀ ws : List Nat, ws.length ≠ 16 → assemble (.ldst ws) = none) ∧
  (∃ cs : List Command, assemble .rdst = some cs ∧ cs.length = 16 ∧
    ∀ i : Fin 16, ∃ c : Command, cs[i.1]? = some c ∧ c.word.toNat = 3 * 2 ^ 32 + i.1 ∧ c.data = 0#128)
end

