-- ==== Sys2Proof/Laws/State.lean ====
section
/-! SUPPORT. What each update of the state does to each field, true by rfl, so that no proof unfolds a record
update. -/

namespace Sys2Proof.Machine

/-! ### `S[i] <- v` -/

@[simp] theorem State.writeWord_S (s : State) (i : WordIdx) (v : Word) : (s.writeWord i v).S = s.S.set i.1 v := rfl
@[simp] theorem State.writeWord_V (s : State) (i : WordIdx) (v : Word) : (s.writeWord i v).V = s.V := rfl
@[simp] theorem State.writeWord_FATAL (s : State) (i : WordIdx) (v : Word) : (s.writeWord i v).FATAL = s.FATAL := rfl
@[simp] theorem State.writeWord_CAUSE (s : State) (i : WordIdx) (v : Word) : (s.writeWord i v).CAUSE = s.CAUSE := rfl
@[simp] theorem State.writeWord_FINFO (s : State) (i : WordIdx) (v : Word) : (s.writeWord i v).FINFO = s.FINFO := rfl
@[simp] theorem State.writeWord_CW (s : State) (i : WordIdx) (v : Word) : (s.writeWord i v).CW = s.CW := rfl
@[simp] theorem State.writeWord_CD (s : State) (i : WordIdx) (v : Word) : (s.writeWord i v).CD = s.CD := rfl
@[simp] theorem State.writeWord_pending (s : State) (i : WordIdx) (v : Word) : (s.writeWord i v).pending = s.pending := rfl
@[simp] theorem State.writeWord_responses (s : State) (i : WordIdx) (v : Word) : (s.writeWord i v).responses = s.responses := rfl
@[simp] theorem State.writeWord_resets (s : State) (i : WordIdx) (v : Word) : (s.writeWord i v).resets = s.resets := rfl

/-! ### `V[i] <- 1` -/

@[simp] theorem State.setValid_S (s : State) (i : WordIdx) : (s.setValid i).S = s.S := rfl
@[simp] theorem State.setValid_V (s : State) (i : WordIdx) : (s.setValid i).V = s.V ||| BitVec.twoPow 16 i.1 := rfl
@[simp] theorem State.setValid_FATAL (s : State) (i : WordIdx) : (s.setValid i).FATAL = s.FATAL := rfl
@[simp] theorem State.setValid_CAUSE (s : State) (i : WordIdx) : (s.setValid i).CAUSE = s.CAUSE := rfl
@[simp] theorem State.setValid_FINFO (s : State) (i : WordIdx) : (s.setValid i).FINFO = s.FINFO := rfl
@[simp] theorem State.setValid_CW (s : State) (i : WordIdx) : (s.setValid i).CW = s.CW := rfl
@[simp] theorem State.setValid_CD (s : State) (i : WordIdx) : (s.setValid i).CD = s.CD := rfl
@[simp] theorem State.setValid_pending (s : State) (i : WordIdx) : (s.setValid i).pending = s.pending := rfl
@[simp] theorem State.setValid_responses (s : State) (i : WordIdx) : (s.setValid i).responses = s.responses := rfl
@[simp] theorem State.setValid_resets (s : State) (i : WordIdx) : (s.setValid i).resets = s.resets := rfl

/-! ### `respond(rd)` -/

@[simp] theorem State.respond_S (s : State) (rd : BusData) : (s.respond rd).S = s.S := rfl
@[simp] theorem State.respond_V (s : State) (rd : BusData) : (s.respond rd).V = s.V := rfl
@[simp] theorem State.respond_FATAL (s : State) (rd : BusData) : (s.respond rd).FATAL = s.FATAL := rfl
@[simp] theorem State.respond_CAUSE (s : State) (rd : BusData) : (s.respond rd).CAUSE = s.CAUSE := rfl
@[simp] theorem State.respond_FINFO (s : State) (rd : BusData) : (s.respond rd).FINFO = s.FINFO := rfl
@[simp] theorem State.respond_CW (s : State) (rd : BusData) : (s.respond rd).CW = s.CW := rfl
@[simp] theorem State.respond_CD (s : State) (rd : BusData) : (s.respond rd).CD = s.CD := rfl
@[simp] theorem State.respond_pending (s : State) (rd : BusData) : (s.respond rd).pending = s.pending := rfl
@[simp] theorem State.respond_responses (s : State) (rd : BusData) : (s.respond rd).responses = s.responses ++ [rd] := rfl
@[simp] theorem State.respond_resets (s : State) (rd : BusData) : (s.respond rd).resets = s.resets := rfl

/-! ### Fatal entry -/

@[simp] theorem State.raiseFatal_S (s : State) (c : Cause) : (s.raiseFatal c).S = s.S := rfl
@[simp] theorem State.raiseFatal_V (s : State) (c : Cause) : (s.raiseFatal c).V = s.V := rfl
@[simp] theorem State.raiseFatal_FATAL (s : State) (c : Cause) : (s.raiseFatal c).FATAL = true := rfl
@[simp] theorem State.raiseFatal_CAUSE (s : State) (c : Cause) : (s.raiseFatal c).CAUSE = c.code := rfl
@[simp] theorem State.raiseFatal_FINFO (s : State) (c : Cause) : (s.raiseFatal c).FINFO = s.CW := rfl
@[simp] theorem State.raiseFatal_CW (s : State) (c : Cause) : (s.raiseFatal c).CW = s.CW := rfl
@[simp] theorem State.raiseFatal_CD (s : State) (c : Cause) : (s.raiseFatal c).CD = s.CD := rfl
@[simp] theorem State.raiseFatal_pending (s : State) (c : Cause) : (s.raiseFatal c).pending = s.pending := rfl
@[simp] theorem State.raiseFatal_responses (s : State) (c : Cause) : (s.raiseFatal c).responses = s.responses := rfl
@[simp] theorem State.raiseFatal_resets (s : State) (c : Cause) : (s.raiseFatal c).resets = s.resets := rfl

/-! ### The Reset event -/

@[simp] theorem State.applyReset_S (s : State) : s.applyReset.S = Config.wordsAfterReset s.resets := rfl
@[simp] theorem State.applyReset_V (s : State) : s.applyReset.V = 0#16 := rfl
@[simp] theorem State.applyReset_FATAL (s : State) : s.applyReset.FATAL = false := rfl
@[simp] theorem State.applyReset_CAUSE (s : State) : s.applyReset.CAUSE = 0#4 := rfl
@[simp] theorem State.applyReset_FINFO (s : State) : s.applyReset.FINFO = 0#40 := rfl
@[simp] theorem State.applyReset_CW (s : State) : s.applyReset.CW = s.CW := rfl
@[simp] theorem State.applyReset_CD (s : State) : s.applyReset.CD = s.CD := rfl
@[simp] theorem State.applyReset_pending (s : State) : s.applyReset.pending = s.pending := rfl
@[simp] theorem State.applyReset_responses (s : State) : s.applyReset.responses = s.responses := rfl
@[simp] theorem State.applyReset_resets (s : State) : s.applyReset.resets = s.resets + 1 := rfl

/-! ### The Reset event with what the host does after it -/

@[simp] theorem State.takeReset_S (s : State) (rest : List HostEvent) : (s.takeReset rest).S = s.applyReset.S := rfl
@[simp] theorem State.takeReset_V (s : State) (rest : List HostEvent) : (s.takeReset rest).V = 0#16 := rfl
@[simp] theorem State.takeReset_FATAL (s : State) (rest : List HostEvent) : (s.takeReset rest).FATAL = false := rfl
@[simp] theorem State.takeReset_CAUSE (s : State) (rest : List HostEvent) : (s.takeReset rest).CAUSE = 0#4 := rfl
@[simp] theorem State.takeReset_FINFO (s : State) (rest : List HostEvent) : (s.takeReset rest).FINFO = 0#40 := rfl
@[simp] theorem State.takeReset_CW (s : State) (rest : List HostEvent) : (s.takeReset rest).CW = s.CW := rfl
@[simp] theorem State.takeReset_CD (s : State) (rest : List HostEvent) : (s.takeReset rest).CD = s.CD := rfl
@[simp] theorem State.takeReset_pending (s : State) (rest : List HostEvent) : (s.takeReset rest).pending = rest := rfl
@[simp] theorem State.takeReset_responses (s : State) (rest : List HostEvent) : (s.takeReset rest).responses = s.responses := rfl
@[simp] theorem State.takeReset_resets (s : State) (rest : List HostEvent) : (s.takeReset rest).resets = s.resets + 1 := rfl

/-! ### Accepting a command -/

@[simp] theorem State.sample_S (s : State) (c : Command) (rest : List HostEvent) : (s.sample c rest).S = s.S := rfl
@[simp] theorem State.sample_V (s : State) (c : Command) (rest : List HostEvent) : (s.sample c rest).V = s.V := rfl
@[simp] theorem State.sample_FATAL (s : State) (c : Command) (rest : List HostEvent) : (s.sample c rest).FATAL = s.FATAL := rfl
@[simp] theorem State.sample_CAUSE (s : State) (c : Command) (rest : List HostEvent) : (s.sample c rest).CAUSE = s.CAUSE := rfl
@[simp] theorem State.sample_FINFO (s : State) (c : Command) (rest : List HostEvent) : (s.sample c rest).FINFO = s.FINFO := rfl
@[simp] theorem State.sample_CW (s : State) (c : Command) (rest : List HostEvent) : (s.sample c rest).CW = c.word := rfl
@[simp] theorem State.sample_CD (s : State) (c : Command) (rest : List HostEvent) : (s.sample c rest).CD = c.data := rfl
@[simp] theorem State.sample_pending (s : State) (c : Command) (rest : List HostEvent) : (s.sample c rest).pending = rest := rfl
@[simp] theorem State.sample_responses (s : State) (c : Command) (rest : List HostEvent) : (s.sample c rest).responses = s.responses := rfl
@[simp] theorem State.sample_resets (s : State) (c : Command) (rest : List HostEvent) : (s.sample c rest).resets = s.resets := rfl

/-! ### Presenting a command -/

@[simp] theorem State.present_S (s : State) (c : Command) : (s.present c).S = s.S := rfl
@[simp] theorem State.present_V (s : State) (c : Command) : (s.present c).V = s.V := rfl
@[simp] theorem State.present_FATAL (s : State) (c : Command) : (s.present c).FATAL = s.FATAL := rfl
@[simp] theorem State.present_CAUSE (s : State) (c : Command) : (s.present c).CAUSE = s.CAUSE := rfl
@[simp] theorem State.present_FINFO (s : State) (c : Command) : (s.present c).FINFO = s.FINFO := rfl
@[simp] theorem State.present_CW (s : State) (c : Command) : (s.present c).CW = s.CW := rfl
@[simp] theorem State.present_CD (s : State) (c : Command) : (s.present c).CD = s.CD := rfl
@[simp] theorem State.present_pending (s : State) (c : Command) : (s.present c).pending = .issue c :: s.pending := rfl
@[simp] theorem State.present_responses (s : State) (c : Command) : (s.present c).responses = s.responses := rfl
@[simp] theorem State.present_resets (s : State) (c : Command) : (s.present c).resets = s.resets := rfl

end Sys2Proof.Machine
end

