-- ==== Sys2Proof/Laws/Operands.lean ====
section
/-! SUPPORT. What each operand form can do, said once: the index check, the valid check, the lanes, the write-back. -/

namespace Sys2Proof.Machine

/-! ### State words and valid bits -/

theorem State.word_writeWord (s : State) (i j : WordIdx) (v : Word) :
    (s.writeWord i v).word j = if j = i then v else s.word j := by
  simp only [State.word, State.writeWord, Vector.getElem_set, Fin.ext_iff]
  by_cases h : j.1 = i.1
  · simp [h]
  · simp [h, Ne.symm h]

theorem State.valid_setValid (s : State) (i j : WordIdx) :
    (s.setValid i).valid j = (decide (j = i) || s.valid j) := by
  simp only [State.valid, State.setValid, BitVec.getLsbD_or, BitVec.getLsbD_twoPow, Fin.ext_iff]
  have := i.2
  by_cases h : j.1 = i.1
  · simp [h, this]
  · simp [h, Ne.symm h]

/-! ### Index operands -/

theorem wordIdx_eq_some {f : IdxField} {i : WordIdx} : wordIdx f = some i ↔ f.toNat = i.1 := by
  unfold wordIdx
  split
  · simp [Fin.ext_iff]
  · have := i.2
    simp
    omega

theorem wordIdx_eq_none {f : IdxField} : wordIdx f = none ↔ f.inRange = false := by
  unfold wordIdx IdxField.inRange
  split <;> simp_all

theorem inRange_eq_true {f : IdxField} : f.inRange = true ↔ ∃ i, wordIdx f = some i := by
  cases h : wordIdx f with
  | none => simpa using wordIdx_eq_none.1 h
  | some i =>
    have := wordIdx_eq_some.1 h
    have := i.2
    simp [IdxField.inRange]
    omega

theorem idxField_toNat (i : WordIdx) : (BitVec.ofNat 8 i.1 : IdxField).toNat = i.1 := by
  have := i.2
  simp
  omega

/-! ### The checks of R100: each either passes or raises its fault -/

theorem whenAccepting_eq_next {s t : State} {k : Answer} :
    whenAccepting s k = .next t ↔ s.FATAL = false ∧ k = .next t := by
  unfold whenAccepting
  cases s.FATAL <;> simp

theorem withIndex_eq_next {s t : State} {f : IdxField} {k : WordIdx → Answer} :
    withIndex s f k = .next t ↔
      (∃ i, f.toNat = i.1 ∧ k i = .next t) ∨ (f.inRange = false ∧ t = s.raiseFatal .indexRange) := by
  unfold withIndex
  cases h : wordIdx f with
  | none =>
    have hr := wordIdx_eq_none.1 h
    have : ∀ i : WordIdx, f.toNat ≠ i.1 := fun i e => by simp [wordIdx_eq_some.2 e] at h
    simp [hr, this, eq_comm]
  | some i =>
    have hi := wordIdx_eq_some.1 h
    have hr : f.inRange = true := inRange_eq_true.2 ⟨i, h⟩
    constructor
    · exact fun hk => .inl ⟨i, hi, hk⟩
    · rintro (⟨j, hj, hk⟩ | ⟨h', -⟩)
      · have : i = j := Fin.ext (hi.symm.trans hj)
        simpa [this] using hk
      · simp [hr] at h'

theorem withIndex_of_lt {s : State} {f : IdxField} {i : WordIdx} (h : f.toNat = i.1) (k : WordIdx → Answer) :
    withIndex s f k = k i := by
  simp [withIndex, wordIdx_eq_some.2 h]

theorem withIndex_of_outOfRange {s : State} {f : IdxField} (h : f.inRange = false) (k : WordIdx → Answer) :
    withIndex s f k = .next (s.raiseFatal .indexRange) := by
  simp [withIndex, wordIdx_eq_none.2 h]

theorem withWord_eq_next {s t : State} {i : WordIdx} {k : Word → Answer} :
    withWord s i k = .next t ↔
      (s.valid i = true ∧ k (s.word i) = .next t) ∨ (s.valid i = false ∧ t = s.raiseFatal .uninitRead) := by
  unfold withWord
  cases s.valid i <;> simp [eq_comm]

theorem withWord_of_valid {s : State} {i : WordIdx} (h : s.valid i = true) (k : Word → Answer) :
    withWord s i k = k (s.word i) := by
  simp [withWord, h]

theorem withWord_of_invalid {s : State} {i : WordIdx} (h : s.valid i = false) (k : Word → Answer) :
    withWord s i k = .next (s.raiseFatal .uninitRead) := by
  simp [withWord, h]

/-! ### The lanes of a data bus -/

/-- The four lanes of a bus put together from four words (R65, R66). -/
theorem busOf_lanes (a b c d : Word) :
    lane (busOf a b c d) 0 = a ∧ lane (busOf a b c d) 1 = b ∧ lane (busOf a b c d) 2 = c ∧
      lane (busOf a b c d) 3 = d := by
  refine ⟨?_, ?_, ?_, ?_⟩ <;>
  · apply BitVec.eq_of_getLsbD_eq
    intro k hk
    simp only [lane, busOf, BitVec.getLsbD_extractLsb', BitVec.getLsbD_append, hk, decide_true, Bool.true_and]
    repeat' split
    all_goals first | omega | (congr 1; simp <;> omega)

/-- Lane 0 of a bus that carries one word, and the other three together (R66). -/
theorem busOfWord_lanes (v : Word) :
    lane (busOfWord v) 0 = v ∧ (busOfWord v).extractLsb' 32 96 = 0#96 := by
  constructor
  · apply BitVec.eq_of_getLsbD_eq
    intro k hk
    simp [lane, busOfWord, hk]
    omega
  · apply BitVec.eq_of_getLsbD_eq
    intro k hk
    simp [busOfWord, hk]

/-! ### The write-back -/

/-- A write-back changes the words only. -/
theorem writeBack_eq (order : List Slot) (ix : IdxQuad) (r : Quad) (s : State) :
    writeBack order ix r s = { s with S := (writeBack order ix r s).S } := by
  induction order generalizing s with
  | nil => rfl
  | cons p ps ih => exact ih (s.writeWord (ix.at p) (r.at p))

/-- The word after the write-back in the order of `OVERLAP_WRITE_ORDER`: the last field that names it decides (R103). -/
theorem word_writeBack (ix : IdxQuad) (r : Quad) (s : State) (j : WordIdx) :
    (writeBack Config.overlapWriteOrder ix r s).word j =
      if j = ix.w then r.d else if j = ix.z then r.c else if j = ix.y then r.b else if j = ix.x then r.a
      else s.word j := by
  simp only [writeBack, Config.overlapWriteOrder, List.foldl_cons, List.foldl_nil, State.word_writeWord,
    IdxQuad.at, Quad.at]

end Sys2Proof.Machine
end

