-- ==== Sys2Proof/Laws/Commands.lean ====
section
/-! SUPPORT. What each command, and a step, can do when it answers a next state: one inversion lemma per meaning. -/

namespace Sys2Proof.Machine

/-- The field-order facts of an AQR whose four indices are in range. -/
structure AqrIdx (x y z w : IdxField) (ix : IdxQuad) : Prop where
  x : x.toNat = ix.x.1
  y : y.toNat = ix.y.1
  z : z.toNat = ix.z.1
  w : w.toNat = ix.w.1

/-- The four words an AQR reads are written. -/
def State.allValid (s : State) (ix : IdxQuad) : Bool :=
  s.valid ix.x && s.valid ix.y && s.valid ix.z && s.valid ix.w

/-- The four words an AQR reads. -/
def State.quad (s : State) (ix : IdxQuad) : Quad := ⟨s.word ix.x, s.word ix.y, s.word ix.z, s.word ix.w⟩

theorem next_eq_next {a t : State} : (Host.Outcome.next a : Answer) = .next t ↔ t = a :=
  ⟨fun h => by cases h; rfl, fun h => by rw [h]⟩

theorem execQr_eq_next {s t : State} :
    execQr s = .next t ↔ s.FATAL = false ∧ t = s.respond (busOfQuad (qr (lanesOf s.CD))) := by
  simp only [execQr, whenAccepting_eq_next, next_eq_next]

theorem execGet_eq_next {i : IdxField} {s t : State} :
    execGet i s = .next t ↔ s.FATAL = false ∧
      ((∃ n : WordIdx, i.toNat = n.1 ∧
          ((s.valid n = true ∧ t = s.respond (busOfWord (s.word n))) ∨
           (s.valid n = false ∧ t = s.raiseFatal .uninitRead))) ∨
        (i.inRange = false ∧ t = s.raiseFatal .indexRange)) := by
  simp only [execGet, whenAccepting_eq_next, withIndex_eq_next, withWord_eq_next, next_eq_next]

theorem execSet_eq_next {i : IdxField} {s t : State} :
    execSet i s = .next t ↔ s.FATAL = false ∧
      ((∃ n : WordIdx, i.toNat = n.1 ∧ t = ((s.writeWord n (lane s.CD 0)).setValid n).respond 0#128) ∨
        (i.inRange = false ∧ t = s.raiseFatal .indexRange)) := by
  simp only [execSet, whenAccepting_eq_next, withIndex_eq_next, next_eq_next]

/-- AQR on four indices in range. -/
theorem execAqr_of_idx {x y z w : IdxField} {ix : IdxQuad} {s : State} (h : AqrIdx x y z w ix)
    (hf : s.FATAL = false) :
    execAqr x y z w s =
      if s.allValid ix then
        .next ((writeBack Config.overlapWriteOrder ix (qr (s.quad ix)) s).respond 0#128)
      else .next (s.raiseFatal .uninitRead) := by
  unfold execAqr whenAccepting
  simp only [hf, withIndex_of_lt h.x, withIndex_of_lt h.y, withIndex_of_lt h.z, withIndex_of_lt h.w, withWord,
    State.allValid, State.quad]
  by_cases hx : s.valid ix.x = true <;> by_cases hy : s.valid ix.y = true <;>
    by_cases hz : s.valid ix.z = true <;> by_cases hw : s.valid ix.w = true <;> simp [hx, hy, hz, hw]

/-- The four indices of an AQR are in range, or one is not. -/
theorem aqrIdx_or (x y z w : IdxField) :
    (∃ ix, AqrIdx x y z w ix) ∨ (Instr.aqr x y z w).wellFormed = false := by
  by_cases h : (Instr.aqr x y z w).wellFormed = true
  · left
    simp only [Instr.wellFormed, Bool.and_eq_true, inRange_eq_true, wordIdx_eq_some] at h
    obtain ⟨⟨⟨⟨a, ha⟩, b, hb⟩, c, hc⟩, d, hd⟩ := h
    exact ⟨⟨a, b, c, d⟩, ha, hb, hc, hd⟩
  · right
    simpa using h

/-- AQR with an index out of range. -/
theorem execAqr_of_outOfRange {x y z w : IdxField} {s : State}
    (h : (Instr.aqr x y z w).wellFormed = false) (hf : s.FATAL = false) :
    execAqr x y z w s = .next (s.raiseFatal .indexRange) := by
  have step : ∀ (f : IdxField) (k : WordIdx → Answer) (b : Bool),
      (f.inRange && b) = false → (b = false → ∀ i, k i = .next (s.raiseFatal .indexRange)) →
      withIndex s f k = .next (s.raiseFatal .indexRange) := by
    intro f k b hb hk
    cases hr : f.inRange with
    | false => exact withIndex_of_outOfRange hr k
    | true =>
      obtain ⟨i, hi⟩ := inRange_eq_true.1 hr
      rw [withIndex_of_lt (wordIdx_eq_some.1 hi)]
      exact hk (by simpa [hr] using hb) i
  unfold execAqr whenAccepting
  simp only [hf, Instr.wellFormed, Bool.and_assoc] at *
  refine step x _ _ h fun h _ => step y _ _ h fun h _ => step z _ (w.inRange && true) (by simpa using h) fun h _ => ?_
  exact step w _ true (by simpa using h) (by simp)

theorem execAqr_eq_next {x y z w : IdxField} {s t : State} :
    execAqr x y z w s = .next t ↔ s.FATAL = false ∧
      ((∃ ix, AqrIdx x y z w ix ∧
          ((s.allValid ix = true ∧
              t = (writeBack Config.overlapWriteOrder ix (qr (s.quad ix)) s).respond 0#128) ∨
           (s.allValid ix = false ∧ t = s.raiseFatal .uninitRead))) ∨
        ((Instr.aqr x y z w).wellFormed = false ∧ t = s.raiseFatal .indexRange)) := by
  cases hf : s.FATAL with
  | true => simp [execAqr, whenAccepting, hf]
  | false =>
    rcases aqrIdx_or x y z w with ⟨ix, h⟩ | h
    · have hw : (Instr.aqr x y z w).wellFormed = true := by
        simp only [Instr.wellFormed, Bool.and_eq_true, inRange_eq_true, wordIdx_eq_some]
        exact ⟨⟨⟨⟨_, h.x⟩, _, h.y⟩, _, h.z⟩, _, h.w⟩
      have hu : ∀ ix', AqrIdx x y z w ix' → ix' = ix := by
        intro ix' h'
        cases ix
        cases ix'
        simp only [IdxQuad.mk.injEq]
        exact ⟨Fin.ext (h'.x.symm.trans h.x), Fin.ext (h'.y.symm.trans h.y), Fin.ext (h'.z.symm.trans h.z),
          Fin.ext (h'.w.symm.trans h.w)⟩
      rw [execAqr_of_idx h hf]
      constructor
      · intro e
        refine ⟨rfl, .inl ⟨ix, h, ?_⟩⟩
        cases hv : s.allValid ix <;> simp [hv] at e <;> simp [e]
      · rintro ⟨-, ⟨ix', h', e⟩ | ⟨h', -⟩⟩
        · rw [hu ix' h'] at e
          rcases e with ⟨hv, rfl⟩ | ⟨hv, rfl⟩ <;> simp [hv]
        · simp [hw] at h'
    · rw [execAqr_of_outOfRange h hf]
      have hn : ¬ ∃ ix, AqrIdx x y z w ix := by
        rintro ⟨ix, h'⟩
        have hw : (Instr.aqr x y z w).wellFormed = true := by
          simp only [Instr.wellFormed, Bool.and_eq_true, inRange_eq_true, wordIdx_eq_some]
          exact ⟨⟨⟨⟨_, h'.x⟩, _, h'.y⟩, _, h'.z⟩, _, h'.w⟩
        simp [hw] at h
      constructor
      · intro e
        exact ⟨rfl, .inr ⟨h, by simpa [eq_comm] using e⟩⟩
      · rintro ⟨-, ⟨ix, h', -⟩ | ⟨-, rfl⟩⟩
        · exact absurd ⟨ix, h'⟩ hn
        · rfl

/-- No command has a step in the fatal state. -/
theorem exec_eq_next_accepting {i : Instr} {s t : State} (h : exec i s = .next t) : s.FATAL = false := by
  cases i with
  | qr => exact (execQr_eq_next.1 h).1
  | aqr x y z w => exact (execAqr_eq_next.1 h).1
  | get n => exact (execGet_eq_next.1 h).1
  | set n => exact (execSet_eq_next.1 h).1

/-- What a command can do when it answers a next state: it ends Done with one response and the fault registers as they
were, or it takes fatal entry and does nothing else. -/
theorem exec_done_or_fatal {i : Instr} {s t : State} (h : exec i s = .next t) :
    (∃ rd, t = { s with S := t.S, V := t.V, responses := s.responses ++ [rd] }) ∨
    (∃ c, t = s.raiseFatal c) := by
  cases i with
  | qr =>
    obtain ⟨-, rfl⟩ := execQr_eq_next.1 h
    exact .inl ⟨_, rfl⟩
  | aqr x y z w =>
    obtain ⟨-, ⟨ix, -, ⟨-, rfl⟩ | ⟨-, rfl⟩⟩ | ⟨-, rfl⟩⟩ := execAqr_eq_next.1 h
    · refine .inl ⟨0#128, ?_⟩
      rw [writeBack_eq]
      rfl
    · exact .inr ⟨_, rfl⟩
    · exact .inr ⟨_, rfl⟩
  | get n =>
    obtain ⟨-, ⟨m, -, ⟨-, rfl⟩ | ⟨-, rfl⟩⟩ | ⟨-, rfl⟩⟩ := execGet_eq_next.1 h
    · exact .inl ⟨_, rfl⟩
    · exact .inr ⟨_, rfl⟩
    · exact .inr ⟨_, rfl⟩
  | set n =>
    obtain ⟨-, ⟨m, -, rfl⟩ | ⟨-, rfl⟩⟩ := execSet_eq_next.1 h
    · exact .inl ⟨_, rfl⟩
    · exact .inr ⟨_, rfl⟩

/-- A step that accepts a command: the sampled word is decoded, and the command executed or the word rejected. -/
theorem step_of_accepted {s : State} {c : Command} {rest : List HostEvent} (hf : s.FATAL = false)
    (hp : s.pending = .issue c :: rest) :
    step s = match decode c.word with
      | .command i => exec i (s.sample c rest)
      | .illegalForm => .next ((s.sample c rest).raiseFatal .illegalForm)
      | .illegalOpcode => .next ((s.sample c rest).raiseFatal .illegalOpcode) := by
  unfold step fetch decodeSampled
  rw [hp, hf]
  cases h : decode c.word <;> simp [h]

/-- What a step can do when it answers a next state: nothing is presented and nothing happens; a Reset is applied; or a
command is accepted, and its word is rejected or its command executed. -/
theorem step_eq_next {s t : State} (h : step s = .next t) :
    (s.pending = [] ∧ t = s) ∨
    (∃ rest, .reset :: rest <:+ s.pending ∧ t = s.takeReset rest) ∨
    (∃ c rest, s.FATAL = false ∧ s.pending = .issue c :: rest ∧
      ((decode c.word = .illegalForm ∧ t = (s.sample c rest).raiseFatal .illegalForm) ∨
       (decode c.word = .illegalOpcode ∧ t = (s.sample c rest).raiseFatal .illegalOpcode) ∨
       (∃ i, decode c.word = .command i ∧ exec i (s.sample c rest) = .next t))) := by
  have suffix : ∀ l r : List HostEvent, afterReset l = some r → .reset :: r <:+ l := by
    intro l
    induction l with
    | nil => simp [afterReset]
    | cons e l ih =>
      intro r hr
      cases e with
      | reset => simp [afterReset] at hr; subst hr; exact List.suffix_refl _
      | issue c => exact (ih r hr).trans (List.suffix_cons _ _)
  unfold step fetch at h
  cases hp : s.pending with
  | nil => simp [hp] at h; exact .inl ⟨rfl, h.symm⟩
  | cons e rest =>
    cases e with
    | reset =>
      simp [hp] at h
      exact .inr (.inl ⟨rest, List.suffix_refl _, h.symm⟩)
    | issue c =>
      cases hf : s.FATAL with
      | true =>
        cases ha : afterReset rest with
        | none => simp [hp, hf, ha] at h
        | some r =>
          simp [hp, hf, ha] at h
          exact .inr (.inl ⟨r, (suffix rest r ha).trans (List.suffix_cons _ _), h.symm⟩)
      | false =>
        refine .inr (.inr ⟨c, rest, rfl, rfl, ?_⟩)
        cases hd : decode c.word with
        | illegalForm => simp [hp, hf, decodeSampled, hd] at h; exact .inl ⟨rfl, h.symm⟩
        | illegalOpcode => simp [hp, hf, decodeSampled, hd] at h; exact .inr (.inl ⟨rfl, h.symm⟩)
        | command i =>
          simp [hp, hf, decodeSampled, hd] at h
          exact .inr (.inr ⟨i, rfl, h⟩)

end Sys2Proof.Machine
end

