-- ==== Sys2Proof/Laws/Encoding.lean ====
section
/-! SUPPORT. Packing and unpacking a command word (spec/30_encoding.md R61). -/

namespace Sys2Proof

/-- Bit `k` of a packed word is a bit of the field it lies in. -/
theorem packWord_getLsbD (op : BitVec 8) (x y z w : IdxField) (k : Nat) :
    (packWord op x y z w).getLsbD k =
      if k < 8 then w.getLsbD k else if k < 16 then z.getLsbD (k - 8) else if k < 24 then y.getLsbD (k - 16)
      else if k < 32 then x.getLsbD (k - 24) else op.getLsbD (k - 32) := by
  simp only [packWord, BitVec.getLsbD_append]
  by_cases h1 : k < 8 <;> by_cases h2 : k < 16 <;> by_cases h3 : k < 24 <;> by_cases h4 : k < 32 <;>
    simp [h1, h2, h3, h4, Nat.sub_sub, show k - 8 < 8 ↔ k < 16 by omega, show k - 16 < 8 ↔ k < 24 by omega,
      show k - 24 < 8 ↔ k < 32 by omega]

theorem opField_packWord (op : BitVec 8) (x y z w : IdxField) : opField (packWord op x y z w) = op := by
  apply BitVec.eq_of_getLsbD_eq
  intro k hk
  simp only [opField, BitVec.getLsbD_extractLsb', packWord_getLsbD]
  simp [hk, show ¬ 32 + k < 8 by omega, show ¬ 32 + k < 16 by omega, show ¬ 32 + k < 24 by omega]

theorem xField_packWord (op : BitVec 8) (x y z w : IdxField) : xField (packWord op x y z w) = x := by
  apply BitVec.eq_of_getLsbD_eq
  intro k hk
  simp only [xField, BitVec.getLsbD_extractLsb', packWord_getLsbD]
  simp [hk, show ¬ 24 + k < 8 by omega, show ¬ 24 + k < 16 by omega, show 24 + k < 32 by omega]

theorem yField_packWord (op : BitVec 8) (x y z w : IdxField) : yField (packWord op x y z w) = y := by
  apply BitVec.eq_of_getLsbD_eq
  intro k hk
  simp only [yField, BitVec.getLsbD_extractLsb', packWord_getLsbD]
  simp [hk, show ¬ 16 + k < 8 by omega, show 16 + k < 24 by omega]

theorem zField_packWord (op : BitVec 8) (x y z w : IdxField) : zField (packWord op x y z w) = z := by
  apply BitVec.eq_of_getLsbD_eq
  intro k hk
  simp only [zField, BitVec.getLsbD_extractLsb', packWord_getLsbD]
  simp [hk, show 8 + k < 16 by omega]

theorem wField_packWord (op : BitVec 8) (x y z w : IdxField) : wField (packWord op x y z w) = w := by
  apply BitVec.eq_of_getLsbD_eq
  intro k hk
  simp only [wField, BitVec.getLsbD_extractLsb', packWord_getLsbD]
  simp [hk]

/-- A command word is its five fields. -/
theorem packWord_fields (cw : CmdWord) :
    packWord (opField cw) (xField cw) (yField cw) (zField cw) (wField cw) = cw := by
  apply BitVec.eq_of_getLsbD_eq
  intro k hk
  simp only [packWord_getLsbD, opField, xField, yField, zField, wField, BitVec.getLsbD_extractLsb']
  split
  · simp [*]
  split
  · rw [show 8 + (k - 8) = k by omega]; simp; omega
  split
  · rw [show 16 + (k - 16) = k by omega]; simp; omega
  split
  · rw [show 24 + (k - 24) = k by omega]; simp; omega
  · rw [show 32 + (k - 32) = k by omega]; simp; omega

/-- A row selects a word exactly when every bit under its mask is the pattern's. -/
theorem selects_iff (r : OpRow) (cw : CmdWord) :
    r.selects cw = true ↔ ∀ k < 40, (cw.getLsbD k && r.mask.getLsbD k) = r.pattern.getLsbD k := by
  simp only [OpRow.selects, decide_eq_true_eq]
  constructor
  · intro h k _
    rw [← h, BitVec.getLsbD_and]
  · intro h
    apply BitVec.eq_of_getLsbD_eq
    intro k hk
    rw [BitVec.getLsbD_and, h k hk]

end Sys2Proof
end

