-- ==== Sys2Proof/Laws/PerInstr.lean ====
section
/-! SUPPORT. Statements for every command, one lemma per constructor: the word of a command is selected by its own row of
the opcode table (spec/30_encoding.md R75). -/

namespace Sys2Proof.Laws.TableRow

/-- The row of the opcode table that bears the command's mnemonic selects the command's word. -/
def Statement (i : Instr) : Prop := ∃ r ∈ opcodeTable, r.mnemonic = i.mnemonic ∧ r.selects (encode i) = true

theorem qr : Statement .qr :=
  ⟨⟨"QR", 0x0100000000#40, 0xffffffffff#40⟩, by simp [opcodeTable], rfl, by decide⟩

theorem aqr (x y z w : IdxField) : Statement (.aqr x y z w) := by
  refine ⟨⟨"AQR", 0x0200000000#40, 0xff00000000#40⟩, by simp [opcodeTable], rfl, (selects_iff _ _).2 ?_⟩
  intro k hk
  rw [encode, packWord_getLsbD]
  interval_cases k <;> simp

theorem get (i : IdxField) : Statement (.get i) := by
  refine ⟨⟨"GET", 0x0300000000#40, 0xffffffff00#40⟩, by simp [opcodeTable], rfl, (selects_iff _ _).2 ?_⟩
  intro k hk
  rw [encode, packWord_getLsbD]
  interval_cases k <;> simp

theorem set (i : IdxField) : Statement (.set i) := by
  refine ⟨⟨"SET", 0x0400000000#40, 0xffffffff00#40⟩, by simp [opcodeTable], rfl, (selects_iff _ _).2 ?_⟩
  intro k hk
  rw [encode, packWord_getLsbD]
  interval_cases k <;> simp

end Sys2Proof.Laws.TableRow
end

