-- ==== Sys2Proof/Laws/Primitives.lean ====
section
/-! SUPPORT. The word operations in the terms of the bit-vector library, and the inverse of each. -/

namespace Sys2Proof.Machine

theorem add32_eq_add (p q : Word) : add32 p q = p + q := by
  apply BitVec.eq_of_toNat_eq
  simp [add32, BitVec.toNat_add]

theorem xor32_eq_xor (p q : Word) : xor32 p q = p ^^^ q := rfl

/-- The formula of R82 is the library's rotation. -/
theorem rotl32_eq_rotateLeft (p : Word) (n : RotAmt) : rotl32 p n = p.rotateLeft n.1 := by
  obtain ⟨n, h1, h2⟩ := n
  apply BitVec.eq_of_toNat_eq
  rw [BitVec.rotateLeft_eq_rotateLeftAux_of_lt (show n < 32 by omega)]
  simp only [rotl32, BitVec.rotateLeftAux, BitVec.toNat_or, BitVec.toNat_shiftLeft,
    BitVec.toNat_ushiftRight, BitVec.toNat_ofNat]
  apply Nat.eq_of_testBit_eq
  intro k
  simp only [Nat.testBit_mod_two_pow, Nat.testBit_or, Nat.testBit_shiftLeft, Nat.testBit_shiftRight]
  by_cases hk : k < 32
  · simp [hk]
  · have : p.toNat.testBit (32 - n + k) = false := Nat.testBit_eq_false_of_lt (lt_of_lt_of_le p.isLt
      (Nat.pow_le_pow_right (by decide) (by omega)))
    simp [hk, this]

end Sys2Proof.Machine
end

