-- ==== Sys2Proof/Laws/Runs.lean ====
section
/-! SUPPORT. Runs of several steps, and what the fatal state does to the host's list. -/

namespace Sys2Proof.Machine

theorem run_zero (s : State) : run 0 s = .next s := rfl

/-- A run is a step and then the rest of the run. -/
theorem run_succ (n : Nat) (s : State) :
    run (n + 1) s = match step s with
      | .next t => run n t
      | .fault r => .fault r
      | .refused r => .refused r := rfl

theorem core_run_of_next {M : Host.Core} {n : Nat} {s t : M.State} (h : M.step s = .next t) :
    M.run (n + 1) s = M.run n t := by
  rw [Host.Core.run, h]

theorem core_run_of_fault {M : Host.Core} {n : Nat} {s : M.State} {r : M.Fault} (h : M.step s = .fault r) :
    M.run (n + 1) s = .fault r := by
  rw [Host.Core.run, h]

theorem core_run_of_refused {M : Host.Core} {n : Nat} {s : M.State} {r : M.Refusal} (h : M.step s = .refused r) :
    M.run (n + 1) s = .refused r := by
  rw [Host.Core.run, h]

/-- A run is a run of the machine behind the host's interface. -/
theorem run_eq_core (n : Nat) (s : State) : run n s = Host.Core.run core n s := by
  induction n generalizing s with
  | zero => rfl
  | succ n ih =>
    rw [run_succ]
    cases hs : step s with
    | next t => exact (ih t).trans (core_run_of_next (M := core) hs).symm
    | fault r => exact (core_run_of_fault (M := core) hs).symm
    | refused r => exact (core_run_of_refused (M := core) hs).symm

theorem run_succ_of_next {n : Nat} {s t : State} (h : step s = .next t) : run (n + 1) s = run n t := by
  rw [run_succ, h]

/-- A run is a first part and then the rest. -/
theorem run_add_of_next {m n : Nat} {s t : State} (h : run m s = .next t) : run (m + n) s = run n t := by
  induction m generalizing s with
  | zero =>
    cases h
    simp
  | succ m ih =>
    rw [run_succ] at h
    rw [Nat.add_right_comm, run_succ]
    cases hs : step s with
    | next u =>
      rw [hs] at h
      exact ih h
    | fault r => simp [hs] at h
    | refused r => simp [hs] at h

/-- In the fatal state the commands before a Reset are never taken (R166). -/
theorem afterReset_issueAll_append (cs : List Command) (rest : List HostEvent) :
    afterReset (issueAll cs ++ .reset :: rest) = some rest := by
  induction cs with
  | nil => rfl
  | cons c cs ih => exact ih

/-- Where the host presents commands only, it applies no Reset. -/
theorem afterReset_issueAll (cs : List Command) : afterReset (issueAll cs) = none := by
  induction cs with
  | nil => rfl
  | cons c cs ih => exact ih

end Sys2Proof.Machine
end

