-- ==== Sys2Proof/Tests/Slice0.lean ====
section
/-! SUPPORT. Tests against the spec's own vectors (spec/95_test_vectors.md), the smoke test of well-formedness, and, for
every statement with hypotheses, a witness that meets them. Every expected value is the spec's. -/

namespace Sys2Proof.Tests
open Sys2Proof Sys2Proof.Machine

/-! ### Well-formedness: each check refuses an ill-formed term beside a well-formed one -/

theorem test_wellFormed_aqr :
    (Instr.aqr 15 15 15 15).wellFormed = true ∧ (Instr.aqr 16 0 0 0).wellFormed = false ∧
    (Instr.aqr 0 16 0 0).wellFormed = false ∧ (Instr.aqr 0 0 16 0).wellFormed = false ∧
    (Instr.aqr 0 0 0 16).wellFormed = false := by decide

theorem test_wellFormed_index :
    (Instr.get 15).wellFormed = true ∧ (Instr.get 16).wellFormed = false ∧
    (Instr.set 15).wellFormed = true ∧ (Instr.set 255).wellFormed = false ∧ Instr.qr.wellFormed = true := by decide

theorem test_wellFormed_asmLine :
    (AsmLine.get 255).wellFormed = true ∧ (AsmLine.get 256).wellFormed = false ∧
    (AsmLine.set 256 0).wellFormed = false ∧ (AsmLine.set 0 0x100000000).wellFormed = false ∧
    (AsmLine.aqr 256 0 0 0).wellFormed = false ∧ (AsmLine.aqr 0 256 0 0).wellFormed = false ∧
    (AsmLine.aqr 0 0 256 0).wellFormed = false ∧ (AsmLine.aqr 0 0 0 256).wellFormed = false ∧
    (AsmLine.qr 0x100000000 0 0 0).wellFormed = false ∧ (AsmLine.qr 0 0x100000000 0 0).wellFormed = false ∧
    (AsmLine.qr 0 0 0x100000000 0).wellFormed = false ∧ (AsmLine.qr 0 0 0 0x100000000).wellFormed = false ∧
    (AsmLine.ldst [1]).wellFormed = false ∧
    (AsmLine.ldst (0x100000000 :: List.replicate 15 0)).wellFormed = false := by decide

/-! ### Decoding: words written bit by bit from R61 to R63, fields op, x, y, z, w -/

theorem test_decode_qr : decode 0b0000000100000000000000000000000000000000#40 = .command .qr := by decide

/-- op 2, x 2, y 7, z 8, w 13 (R61's example word). -/
theorem test_decode_aqr :
    decode 0b0000001000000010000001110000100000001101#40 = .command (.aqr 2 7 8 13) := by decide

/-- op 3, i 7 (section 2.8). -/
theorem test_decode_get : decode 0b0000001100000000000000000000000000000111#40 = .command (.get 7) := by decide

/-- op 4, i 255: decodes, and faults only in execution (R64). -/
theorem test_decode_set : decode 0b0000010000000000000000000000000011111111#40 = .command (.set 255) := by decide

theorem test_decode_rejects :
    decode 0x0100000100#40 = .illegalForm ∧ decode 0x0400010000#40 = .illegalForm ∧
    decode 0x0301000000#40 = .illegalForm ∧ decode 0x0000000000#40 = .illegalOpcode ∧
    decode 0x0602070810#40 = .illegalOpcode := by decide

theorem test_encode :
    encode .qr = 0x0100000000#40 ∧ encode (.aqr 2 7 8 13) = 0x020207080d#40 ∧
    encode (.get 13) = 0x030000000d#40 ∧ encode (.set 2) = 0x0400000002#40 := by decide

theorem test_decodeTableWord :
    decodeTableWord 40 0x0202070810 = some (.aqr 2 7 8 16) ∧ decodeTableWord 40 0x0100000001 = none := by decide

/-! ### The word operations and the quarter-round (sections 1, 2.1 to 2.4) -/

/-- S1, the document's exact worked example. -/
theorem test_ops :
    add32 0x77777777 0x01234567 = 0x789abcde ∧ xor32 0x01020304 0x789abcde = 0x7998bfda ∧ rot7 0x7998bfda = 0xcc5fed3c :=
  by decide

theorem test_rotators :
    rot16 0xdeadbeef = 0xbeefdead ∧ rot12 0xdeadbeef = 0xdbeefdea ∧ rot8 0xdeadbeef = 0xadbeefde ∧
    rot7 0xdeadbeef = 0x56df77ef ∧ rotl32 0x12345678 ⟨25, by decide⟩ = 0xf02468ac := by decide

/-- S2, the document's quarter-round vector, and the all-ones vector of section 2.4. -/
theorem test_qr_function :
    qr ⟨0x11111111, 0x01020304, 0x9b8d6f43, 0x01234567⟩ = ⟨0xea2a92f4, 0xcb1cf8ce, 0x4581472e, 0x5881c4bb⟩ ∧
    qr ⟨0xffffffff, 0xffffffff, 0xffffffff, 0xffffffff⟩ = ⟨0xf0000ffd, 0x88790878, 0x0110fdef, 0x010ffdf0⟩ := by decide

/-! ### Commands, one step each -/

/-- A next state with the property. -/
def nextSat (o : Answer) (p : State → Bool) : Bool :=
  match o with
  | .next s => p s
  | .fault _ => false
  | .refused _ => false

/-- No next state, because the command is not accepted. -/
def isStuck (o : Answer) : Bool :=
  match o with
  | .next _ => false
  | .fault .notAccepted => true
  | .refused _ => false

/-- Sixteen words written, none pending. -/
def loaded (ws : Vector Word 16) : State := { State.reset with S := ws, V := 0xffff#16 }

/-- The start state of section 2.6: `S[i] = i + 1`. -/
def counted : State := loaded (Vector.ofFn fun i : Fin 16 => BitVec.ofNat 32 (i.1 + 1))

/-- The state before of vector S3. -/
def s3 : State := loaded #v[
  0x879531e0, 0xc5ecf37d, 0x516461b1, 0xc9a62f8a, 0x44c20ef3, 0x3390af7f, 0xd9fc690b, 0x2a5f714c,
  0x53372767, 0xb00a5631, 0x974c541a, 0x359e9963, 0x5c971061, 0x3d631689, 0x2098d9d6, 0x91dbd320]

/-- Section 2.5, first row. -/
theorem test_qr :
    nextSat (step (State.reset.present ⟨0x0100000000, 0x012345679b8d6f430102030411111111⟩))
      (fun t => t.responses = [0x5881c4bb4581472ecb1cf8ceea2a92f4#128] && t.V = 0) = true := by decide

/-- Vector S3: the four words, and an untouched one. -/
theorem test_aqr :
    nextSat (step (s3.present ⟨0x020207080d, 0⟩))
      (fun t => t.word 2 = 0xbdb886dc && t.word 7 = 0xcfacafd2 && t.word 8 = 0xe46bea80 && t.word 13 = 0xccc07c79 &&
        t.word 0 = 0x879531e0 && t.responses = [0#128]) = true := by decide

/-- Section 2.6, `AQR 3, 3, 4, 5`: the later field of a repeated index wins. -/
theorem test_aqr_repeated :
    nextSat (step (counted.present ⟨0x0203030405, 0⟩))
      (fun t => t.word 3 = 0x0f0c72f7 && t.word 4 = 0x0e1e08e5 && t.word 5 = 0x0e1008e0 && t.word 6 = 7) = true := by decide

/-- Section 2.6, `GET 15`. -/
theorem test_get :
    nextSat (step (counted.present ⟨0x030000000f, 0⟩)) (fun t => t.responses = [0x10#128] && t.S = counted.S) = true := by
  decide

/-- R107's worked example; the ignored lanes are not zero here. -/
theorem test_set :
    nextSat (step (State.reset.present ⟨0x0400000002, 0xffffffffffffffffffffffff516461b1⟩))
      (fun t => t.word 2 = 0x516461b1 && t.V = 0x0004 && t.responses = [0#128]) = true := by decide

/-- The fault a word raises in a state: the cause, with `FINFO` the word and no response. -/
def faultsWith (s : State) (cw : CmdWord) (c : BitVec 4) : Bool :=
  nextSat (step (s.present ⟨cw, 0⟩)) fun t =>
    t.FATAL && t.CAUSE = c && t.FINFO = cw && t.responses = s.responses && t.S = s.S && t.V = s.V

/-- Rows of section 2.7 from reset, and P5's step 17 on the S3 state. -/
theorem test_faults :
    faultsWith State.reset 0x0000000000 1 ∧ faultsWith State.reset 0xff01020304 1 ∧
    faultsWith State.reset 0x0100000001 2 ∧ faultsWith State.reset 0x0400000120 2 ∧
    faultsWith State.reset 0x0300000010 3 ∧ faultsWith State.reset 0x04000000ff 3 ∧
    faultsWith State.reset 0x0210010203 3 ∧ faultsWith s3 0x0202070810 3 ∧
    faultsWith State.reset 0x030000000f 4 ∧ faultsWith State.reset 0x020004080c 4 := by decide

/-- The fatal state after P4's step 2, and the rest of P4's list. -/
def fatal (rest : List HostEvent) : State :=
  { State.reset with
    S := State.reset.S.set 0 0xaaaaaaaa, V := 1, FATAL := true, CAUSE := 4, FINFO := 0x020004080c, pending := rest }

/-- P4, steps 3 and 4: `GET 0` is not accepted, and Reset makes the engine ready again. -/
theorem test_notAccepted_and_reset :
    isStuck (step (fatal [.issue ⟨0x0300000000, 0⟩])) = true ∧
    nextSat (step (fatal [.issue ⟨0x0300000000, 0⟩, .reset]))
      (fun t => t.V = 0 && !t.FATAL && t.CAUSE = 0 && t.FINFO = 0 && t.responses = []) = true := by decide

/-! ### The schedule and the assembler -/

/-- The input state `T` of section 2.9. -/
def stateT : Vector Word 16 := #v[
  0x61707865, 0x3320646e, 0x79622d32, 0x6b206574, 0x03020100, 0x07060504, 0x0b0a0908, 0x0f0e0d0c,
  0x13121110, 0x17161514, 0x1b1a1918, 0x1f1e1d1c, 0x00000001, 0x09000000, 0x4a000000, 0x00000000]

/-- The first row of the matrix after COLROUND (section 2.9). -/
theorem test_colround :
    ((quartersOn colq stateT).toList.take 4) = [0xabbaa25c, 0x1efa51ea, 0x7354fbdf, 0x83d2dc69] := by decide

theorem test_expansions :
    colround.map (fun c => c.word) = [0x020004080c, 0x020105090d, 0x0202060a0e, 0x0203070b0f] ∧
    diaground.map (fun c => c.word) = [0x0200050a0f, 0x0201060b0c, 0x020207080d, 0x020304090e] ∧
    permute20.length = 80 ∧ (rdst.map fun c => c.word).take 2 = [0x0300000000, 0x0300000001] := by decide

theorem test_assembler :
    (readLine "QR 0x11111111, 0x01020304, 0x9b8d6f43, 0x01234567".toList).bind assemble
      = some [⟨0x0100000000, 0x012345679b8d6f430102030411111111⟩] ∧
    (readLine "AQR 2, 7, 8, 0xd".toList).bind assemble = some [⟨0x020207080d, 0⟩] ∧
    (readLine "SET 15, 0xcafebabe".toList).bind assemble = some [⟨0x040000000f, 0xcafebabe⟩] ∧
    (readLine "GET 256".toList).bind assemble = none ∧
    (readLine "COLROUND".toList).bind assemble = some colround := by decide

/-! ### The machine runs from reset, and its state is plain data -/

theorem test_withFetchWord_runs :
    nextSat (step (State.reset.withFetchWord 40 0x0400000005)) (fun t => t.V = 0x0020 && t.pending = []) = true := by
  decide

theorem reset_inv : State.reset.Inv := ⟨fun _ => ⟨rfl, rfl⟩, fun h => by cases h⟩

/-! ### Witnesses: a concrete state and operands that meet the hypotheses of each statement -/

/-- `s3` with commands presented. -/
def s3With (cs : List Command) : State := { s3 with pending := issueAll cs }

theorem witness_EveryAcceptedWordIsTheWordOfItsCommand : decode 0x02ff00000f#40 = .command (.aqr 255 0 0 15) := by decide

theorem witness_OpcodeTableSelectsWhatDecodes :
    decode 0x0300000007#40 = .command (.get 7) ∧ decode 0x0500000000#40 = .illegalOpcode ∧
    decode 0x0400000100#40 = .illegalForm := by decide

/-- Amounts that add up to 31, and to 33. -/
theorem witness_RotationsCompose :
    ((⟨15, by decide⟩ : RotAmt).1 + (⟨16, by decide⟩ : RotAmt).1) % 32 = (⟨31, by decide⟩ : RotAmt).1 ∧
    ((⟨31, by decide⟩ : RotAmt).1 + (⟨2, by decide⟩ : RotAmt).1) % 32 = (⟨1, by decide⟩ : RotAmt).1 := by decide

/-- The intermediate values of vector S2 (section 2.4). -/
theorem witness_QuarterRoundByNamedIntermediates :
    (0x12131415 : Word) = add32 0x11111111 0x01020304 ∧
    (0x51721330 : Word) = rotl32 (xor32 0x01234567 0x12131415) ⟨16, by decide⟩ ∧
    (0xecff8273 : Word) = add32 0x9b8d6f43 0x51721330 ∧
    (0xd8177edf : Word) = rotl32 (xor32 0x01020304 0xecff8273) ⟨12, by decide⟩ ∧
    (0xea2a92f4 : Word) = add32 0x12131415 0xd8177edf ∧
    (0x5881c4bb : Word) = rotl32 (xor32 0x51721330 0xea2a92f4) ⟨8, by decide⟩ ∧
    (0x4581472e : Word) = add32 0xecff8273 0x5881c4bb ∧
    (0xcb1cf8ce : Word) = rotl32 (xor32 0xd8177edf 0x4581472e) ⟨7, by decide⟩ := by decide

theorem witness_QuarterRoundLosesNothing : qr ⟨1, 2, 3, 4⟩ = qr ⟨1, 2, 3, 4⟩ := rfl

theorem witness_QrCompletes : State.reset.FATAL = false := rfl

/-- With four different indices, the last of them 15, and with repeated ones. -/
theorem witness_AqrCompletes :
    s3.FATAL = false ∧ (0#8).toNat = (0 : WordIdx).1 ∧ (5#8).toNat = (5 : WordIdx).1 ∧ (10#8).toNat = (10 : WordIdx).1 ∧
    (15#8).toNat = (15 : WordIdx).1 ∧ s3.valid 0 = true ∧ s3.valid 5 = true ∧ s3.valid 10 = true ∧
    s3.valid 15 = true := by decide

theorem witness_GetCompletes :
    s3.FATAL = false ∧ (15#8).toNat = (15 : WordIdx).1 ∧ s3.valid 15 = true := by decide

theorem witness_SetCompletes : State.reset.FATAL = false ∧ (15#8).toNat = (15 : WordIdx).1 := by decide

theorem witness_WellTypedCommandsAlwaysEndDone :
    (Instr.aqr 15 15 0 15).wellFormed = true ∧ s3.constructed ∧ s3.FATAL = false := by decide

/-- QR; GET that ends Done; GET that raises the fatal fault. -/
theorem witness_ReadingCommandsChangeNoWord :
    nextSat (exec .qr s3) (fun _ => true) = true ∧ nextSat (exec (.get 15) s3) (fun t => !t.FATAL) = true ∧
    nextSat (exec (.get 16) s3) (fun t => t.FATAL) = true := by decide

theorem witness_AqrDoesNotInterfere :
    nextSat (exec (.aqr 2 7 8 13) s3) (fun t => !t.FATAL) = true := by decide

/-- SET and AQR, each Done and Fatal. -/
theorem witness_WritingCommandsChangeOnlyWhatTheyName :
    nextSat (exec (.set 15) s3) (fun t => !t.FATAL) = true ∧ nextSat (exec (.set 16) s3) (fun t => t.FATAL) = true ∧
    nextSat (exec (.aqr 0 4 8 12) s3) (fun t => !t.FATAL) = true ∧
    nextSat (exec (.aqr 0 4 8 16) s3) (fun t => t.FATAL) = true := by decide

theorem witness_StepRunsTheDecodedCommand :
    (s3With [⟨0x020207080d, 0⟩]).FATAL = false ∧
    (s3With [⟨0x020207080d, 0⟩]).pending = [.issue ⟨0x020207080d, 0⟩] ∧
    decode 0x020207080d#40 = .command (.aqr 2 7 8 13) := by decide

/-- At both ends of the illegal opcodes: 0x00, 0x05 and 0xff. -/
theorem witness_UndefinedOpcodeIsFatal :
    (s3With [⟨0xff01020304, 0⟩]).FATAL = false ∧
    (s3With [⟨0xff01020304, 0⟩]).pending = [.issue ⟨0xff01020304, 0⟩] ∧ 5 ≤ (opField 0xff01020304#40).toNat ∧
    5 ≤ (opField 0x0500000000#40).toNat ∧ opField 0x0000000000#40 = 0x00#8 := by decide

/-- Each reserved field of each format. -/
theorem witness_NonzeroReservedFieldIsFatal :
    (s3With [⟨0x0100000001, 0⟩]).FATAL = false ∧
    (s3With [⟨0x0100000001, 0⟩]).pending = [.issue ⟨0x0100000001, 0⟩] ∧
    (opField 0x0100000001#40 = 0x01#8 ∧ wField 0x0100000001#40 ≠ 0#8) ∧
    (opField 0x0100000100#40 = 0x01#8 ∧ zField 0x0100000100#40 ≠ 0#8) ∧
    (opField 0x0100010000#40 = 0x01#8 ∧ yField 0x0100010000#40 ≠ 0#8) ∧
    (opField 0x0101000000#40 = 0x01#8 ∧ xField 0x0101000000#40 ≠ 0#8) ∧
    (opField 0x0301000000#40 = 0x03#8 ∧ xField 0x0301000000#40 ≠ 0#8) ∧
    (opField 0x0400010000#40 = 0x04#8 ∧ yField 0x0400010000#40 ≠ 0#8) ∧
    (opField 0x0400000120#40 = 0x04#8 ∧ zField 0x0400000120#40 ≠ 0#8) := by decide

/-- The nearest indices, 15 in range and 16 not, in every operand. -/
theorem witness_IndexAboveFifteenIsFatal :
    State.reset.FATAL = false ∧ 15 < (16#8).toNat ∧ ¬ 15 < (15#8).toNat ∧ 15 < (255#8).toNat ∧
    faultsWith s3 0x0210070809 3 ∧ faultsWith s3 0x0207100809 3 ∧ faultsWith s3 0x0207081009 3 ∧
    faultsWith s3 0x0207080910 3 ∧ faultsWith s3 0x03000000ff 3 ∧ faultsWith s3 0x0400000010 3 := by decide

/-- Each operand of AQR invalid alone, and GET; a SET that ends Fatal, by its index. -/
theorem witness_ReadingAnUnwrittenWordIsFatal :
    (({ s3 with V := 0xfffe } : State).FATAL = false ∧ ({ s3 with V := 0xfffe } : State).valid 0 = false) ∧
    (({ s3 with V := 0xffef } : State).FATAL = false ∧ ({ s3 with V := 0xffef } : State).valid 4 = false) ∧
    (({ s3 with V := 0xfeff } : State).FATAL = false ∧ ({ s3 with V := 0xfeff } : State).valid 8 = false) ∧
    (({ s3 with V := 0xefff } : State).FATAL = false ∧ ({ s3 with V := 0xefff } : State).valid 12 = false) ∧
    (0#8).toNat = (0 : WordIdx).1 ∧ (4#8).toNat = (4 : WordIdx).1 ∧ (8#8).toNat = (8 : WordIdx).1 ∧
    (12#8).toNat = (12 : WordIdx).1 ∧ nextSat (exec (.set 16) s3) (fun t => t.FATAL) = true := by decide

/-- A word for each cause, two of them with a second violation of lower priority, and one for none (R162's examples). -/
theorem witness_FirstFailingCheckWins :
    (s3With [⟨0x0300000000, 0⟩]).FATAL = false ∧
    (s3With [⟨0x0300000000, 0⟩]).pending = [.issue ⟨0x0300000000, 0⟩] ∧
    faultOf s3.V 0x0300000000 = none ∧ faultOf 0 0xff01020304 = some .illegalOpcode ∧
    faultOf 0 0x0301000020 = some .illegalForm ∧ faultOf 0 0x0200010210 = some .indexRange ∧
    faultOf 0 0x0300000000 = some .uninitRead := by decide

theorem witness_FatalEntryWritesOnlyTheFaultRegisters :
    (s3With [⟨0, 0⟩]).FATAL = false ∧ nextSat (step (s3With [⟨0, 0⟩])) (fun t => t.FATAL) = true := by decide

/-- A command in the fatal state, and a host that presents commands only. -/
theorem witness_NoCommandIsAcceptedInTheFatalState :
    (fatal []).FATAL = true ∧
    (fatal (issueAll [⟨0x0100000000, 0⟩])).pending = issueAll [⟨0x0100000000, 0⟩] ∧
    ([⟨0x0100000000, 0⟩] : List Command) ≠ [] := by decide

/-- A command and then a Reset; a Reset at once. -/
theorem witness_ResetIsNotHeldUpByUntakenCommands :
    (fatal (issueAll [⟨0, 0⟩] ++ .reset :: [])).FATAL = true ∧
    (fatal (issueAll [⟨0, 0⟩] ++ .reset :: [])).pending = issueAll [⟨0, 0⟩] ++ .reset :: [] ∧
    (fatal [.reset]).pending = issueAll [] ++ .reset :: [] := by decide

/-- From the fatal state, with nothing presented and with a Reset. -/
theorem witness_OnlyResetLeavesTheFatalState :
    (fatal []).FATAL = true ∧ nextSat (step (fatal [])) (fun t => t.FATAL) = true ∧
    (fatal [.reset]).FATAL = true ∧ nextSat (step (fatal [.reset])) (fun t => !t.FATAL) = true := by decide

theorem witness_ResetEventClearsAndHides : (fatal [.reset]).pending = .reset :: [] := rfl

/-- A state in the fatal state that meets the invariant: GET 15 from reset (section 2.7). -/
theorem witness_StepKeepsTheFaultRegistersTruthful :
    ({ State.reset with FATAL := true, CAUSE := 4, FINFO := 0x030000000f } : State).Inv ∧
    State.reset.Inv ∧ nextSat (step (State.reset.present ⟨0x030000000f, 0⟩)) (fun t => t.FATAL) = true ∧
    (State.reset.present ⟨0x030000000f, 0⟩).Inv :=
  ⟨⟨fun h => absurd h (by decide), fun _ => ⟨.uninitRead, rfl, by decide⟩⟩, reset_inv, by decide,
    ⟨fun _ => ⟨rfl, rfl⟩, fun h => absurd h (by decide)⟩⟩

/-- A step that sets a valid bit and changes a word, one that changes words by AQR, and one that keeps a valid bit. -/
theorem witness_WordsChangeOnlyByCommandsThatNameThem :
    nextSat (step (State.reset.present ⟨0x040000000f, 1⟩))
      (fun t => t.resets = State.reset.resets && t.valid 15 && !State.reset.valid 15 && t.word 15 ≠ State.reset.word 15)
      = true ∧
    nextSat (step (s3.present ⟨0x020207080d, 0⟩))
      (fun t => t.resets = s3.resets && t.word 2 ≠ s3.word 2 && s3.valid 2 && t.valid 2) = true := by decide

/-- Two states with different histories. -/
theorem witness_NoHiddenState :
    (s3With [⟨0x0300000002, 0⟩]).sameArch
      { s3With [⟨0x0300000002, 0⟩] with responses := [7], CW := 5, resets := 3,
                                        pending := [.issue ⟨0x0300000002, 0⟩, .reset] } ∧
    (s3With [⟨0x0300000002, 0⟩]).FATAL = false ∧
    (s3With [⟨0x0300000002, 0⟩]).pending = .issue ⟨0x0300000002, 0⟩ :: [] := by
  exact ⟨⟨rfl, rfl, rfl, rfl, rfl⟩, rfl, rfl⟩

/-- Two states that differ in a word nothing has written. -/
theorem witness_UnwrittenWordsAreNeverObserved :
    State.reset.Alike { State.reset with S := State.reset.S.set 3 0xdeadbeef } ∧
    State.reset.word 3 ≠ ({ State.reset with S := State.reset.S.set 3 0xdeadbeef } : State).word 3 :=
  ⟨⟨fun i h => absurd h (by revert i; decide), rfl, rfl, rfl, rfl, rfl, rfl, rfl, rfl, rfl⟩, by decide⟩

/-- AQR and GET with any lanes, SET with lane 0 kept. -/
theorem witness_IgnoredLanesHaveNoEffect :
    nextSat (exec (.aqr 2 7 8 13) s3) (fun _ => true) = true ∧ nextSat (exec (.get 2) s3) (fun _ => true) = true ∧
    nextSat (exec (.set 2) s3) (fun _ => true) = true ∧
    (0xffffffff00000000#128).extractLsb' 0 32 = s3.CD.extractLsb' 0 32 := by decide

/-- A command of each kind that ends Done, and one that ends Fatal. -/
theorem witness_OneResponsePerDoneCommand :
    (s3With [⟨0x0100000000, 0⟩]).FATAL = false ∧
    (s3With [⟨0x0100000000, 0⟩]).pending = .issue ⟨0x0100000000, 0⟩ :: [] ∧
    nextSat (step (s3With [⟨0x0100000000, 0⟩])) (fun t => !t.FATAL) = true ∧
    nextSat (step (s3With [⟨0x030000000f, 0⟩])) (fun t => !t.FATAL) = true ∧
    nextSat (step (s3With [⟨0x040000000f, 0⟩])) (fun t => !t.FATAL) = true ∧
    nextSat (step (s3With [⟨0x020004080c, 0⟩])) (fun t => !t.FATAL) = true ∧
    nextSat (step (s3With [⟨0x0300000010, 0⟩])) (fun t => t.FATAL) = true := by decide

/-- A QR writes no word. -/
theorem qr_writes_nothing {f : IdxField} :
    ∀ c ∈ ([⟨0x0100000000, 0⟩] : List Command), ∀ ins, decode c.word = .command ins → f ∉ ins.writes := by
  intro c hc ins h
  have h0 : decode (⟨0x0100000000, 0⟩ : Command).word = .command .qr := by decide
  rw [List.mem_singleton] at hc
  subst hc
  rw [h0] at h
  cases h
  exact List.not_mem_nil

/-- A SET, then a QR, then the GET; an AQR that names the word first and last, then a QR, then the GET. -/
theorem witness_GetReturnsTheLatestWrite :
    (s3With (setCommand 15 7 :: [⟨0x0100000000, 0⟩] ++ [getCommand 15])).FATAL = false ∧
    decode (setCommand 15 7).word = .command (.set (idxField 15)) ∧
    (∀ c ∈ ([⟨0x0100000000, 0⟩] : List Command), ∀ ins, decode c.word = .command ins → idxField 15 ∉ ins.writes) ∧
    nextSat (run ([(⟨0x0100000000, 0⟩ : Command)].length + 2)
      (s3With (setCommand 15 7 :: [⟨0x0100000000, 0⟩] ++ [getCommand 15]))) (fun t => !t.FATAL) = true ∧
    decode (aqrCommand ⟨15, 7, 8, 15⟩).word
      = .command (.aqr (idxField 15) (idxField 7) (idxField 8) (idxField 15)) ∧
    nextSat (run ([(⟨0x0100000000, 0⟩ : Command)].length + 2)
      (s3With (aqrCommand ⟨15, 7, 8, 15⟩ :: [⟨0x0100000000, 0⟩] ++ [getCommand 15]))) (fun t => !t.FATAL) = true :=
  ⟨rfl, by decide, qr_writes_nothing, by decide, by decide, by decide⟩

theorem witness_RepeatingGetOrSetChangesNothing :
    nextSat (exec (.get 15) s3) (fun t => !t.FATAL) = true ∧ nextSat (exec (.set 15) s3) (fun t => !t.FATAL) = true := by
  decide

/-- A list whose second command is not accepted, because the first ends Fatal. -/
theorem witness_EveryCommandListFinishes :
    (s3With [⟨0, 0⟩, ⟨0x0100000000, 0⟩]).FATAL = false ∧
    (s3With [⟨0, 0⟩, ⟨0x0100000000, 0⟩]).pending = issueAll [⟨0, 0⟩, ⟨0x0100000000, 0⟩] := by decide

theorem witness_WriteOrderMattersOnlyForRepeatedIndices :
    [Slot.w, .z, .y, .x].Perm [.x, .y, .z, .w] ∧ ([2, 7, 8, 13] : List WordIdx).Nodup := by decide

/-- Two columns; the second AQR also ends Done. -/
theorem witness_DisjointQuarterRoundsCommute :
    (∀ f ∈ ([0, 4, 8, 12] : List IdxField), f ∉ ([1, 5, 9, 13] : List IdxField)) ∧
    nextSat (exec (.aqr 0 4 8 12) s3)
      (fun t => !t.FATAL && nextSat (exec (.aqr 1 5 9 13) t) (fun u => !u.FATAL)) = true := by decide

theorem witness_OrderInsideARoundDoesNotMatter :
    s3.FATAL = false ∧ s3.constructed ∧ colround.reverse.Perm colround ∧ diaground.reverse.Perm diaground := by decide

theorem witness_ColumnRoundMixesEveryColumn :
    (s3With colround).FATAL = false ∧ (s3With colround).constructed ∧
    (s3With colround).pending = issueAll colround ++ [] :=
  ⟨rfl, rfl, (List.append_nil _).symm⟩

theorem witness_DiagonalRoundMixesEveryDiagonal :
    (s3With diaground).FATAL = false ∧ (s3With diaground).constructed ∧
    (s3With diaground).pending = issueAll diaground ++ [] :=
  ⟨rfl, rfl, (List.append_nil _).symm⟩

/-- Unwritten words at the first command of a round and at its last. -/
theorem witness_RoundOnUnwrittenWordsIsFatal :
    (({ s3With (colq.map aqrCommand) with V := 0xfffe } : State).FATAL = false ∧
      ¬ ({ s3With (colq.map aqrCommand) with V := 0xfffe } : State).constructed) ∧
    (({ s3With (colq.map aqrCommand) with V := 0x7fff } : State).FATAL = false ∧
      ¬ ({ s3With (colq.map aqrCommand) with V := 0x7fff } : State).constructed) ∧
    ({ s3With (colq.map aqrCommand) with V := 0x7fff } : State).pending = issueAll (colq.map aqrCommand) :=
  ⟨⟨rfl, fun h => absurd (h : 0xfffe#16 = 0xffff#16) (by decide)⟩,
    ⟨rfl, fun h => absurd (h : 0x7fff#16 = 0xffff#16) (by decide)⟩, rfl⟩

theorem witness_PermuteRunsTenDoubleRounds :
    (s3With permute20).FATAL = false ∧ (s3With permute20).constructed ∧
    (s3With permute20).pending = issueAll permute20 ++ [] :=
  ⟨rfl, rfl, (List.append_nil _).symm⟩

theorem witness_LoadConstructsTheState :
    ({ State.reset with pending := issueAll (ldst stateT) } : State).FATAL = false ∧
    ({ State.reset with pending := issueAll (ldst stateT) } : State).pending = issueAll (ldst stateT) ++ [] :=
  ⟨rfl, (List.append_nil _).symm⟩

theorem witness_ReadOutDeliversEveryWord :
    (s3With rdst).FATAL = false ∧ (s3With rdst).constructed ∧ (s3With rdst).pending = issueAll rdst ++ [] :=
  ⟨rfl, rfl, (List.append_nil _).symm⟩

theorem witness_LoadPermuteReadOutDeliversThePermutation :
    ({ State.reset with pending := issueAll (ldst stateT ++ permute20 ++ rdst) } : State).FATAL = false := rfl

/-- The largest operands that can be encoded, and the smallest that cannot. -/
theorem witness_AssemblerEncodesEveryCommandLine :
    0xffffffff < 2 ^ 32 ∧ 255 ≤ 255 ∧ 255 < 256 ∧
    assemble (.aqr 255 255 255 255) = some [⟨0x02ffffffff, 0⟩] ∧ assemble (.set 256 0) = none := by decide

/-- Sixteen words that can be encoded, the largest among them, and a list of another length. -/
theorem witness_AssemblerExpandsEveryPseudoInstruction :
    (List.replicate 16 0xffffffff).length = 16 ∧ (∀ v ∈ List.replicate 16 0xffffffff, v < 2 ^ 32) ∧
    ([1] : List Nat).length ≠ 16 := by decide

end Sys2Proof.Tests
end

section
/-! PROOFS. The two rejections of the decoder (spec/30_encoding.md R67, R68) and the step that answers each with fatal
entry. -/

namespace Sys2Proof

/-- No row of the decoder has the opcode 0x00 or one from 0x05 up (R67). -/
theorem decode_of_undefinedOpcode {cw : CmdWord} (h : opField cw = 0x00#8 ∨ 5 ≤ (opField cw).toNat) :
    decode cw = .illegalOpcode := by
  have hne : ∀ op : BitVec 8, 1 ≤ op.toNat → op.toNat ≤ 4 → opField cw ≠ op := by
    rintro op hlo hhi rfl
    rcases h with h | h
    · simp [h] at hlo
    · omega
  simp [decode, hne]

/-- Opcode 0x01 with a non-zero field: in format N all four are reserved (R68). -/
theorem decode_of_nonzero_formatN {cw : CmdWord} (ho : opField cw = 0x01#8)
    (hr : xField cw ≠ 0#8 ∨ yField cw ≠ 0#8 ∨ zField cw ≠ 0#8 ∨ wField cw ≠ 0#8) :
    decode cw = .illegalForm := by
  have hor : xField cw ||| yField cw ||| zField cw ||| wField cw ≠ 0#8 := by
    simpa only [ne_eq, BitVec.or_eq_zero_iff, and_assoc, not_and_or] using hr
  simp only [decode, ho, if_true, if_pos hor]

/-- Opcodes 0x03 and 0x04 with a non-zero x, y or z: in format I these three are reserved (R68). -/
theorem decode_of_nonzero_formatI {cw : CmdWord} (ho : opField cw = 0x03#8 ∨ opField cw = 0x04#8)
    (hr : xField cw ≠ 0#8 ∨ yField cw ≠ 0#8 ∨ zField cw ≠ 0#8) : decode cw = .illegalForm := by
  have hor : xField cw ||| yField cw ||| zField cw ≠ 0#8 := by
    simpa only [ne_eq, BitVec.or_eq_zero_iff, and_assoc, not_and_or] using hr
  rcases ho with ho | ho <;> simp [decode, ho, hor, -BitVec.or_eq_zero_iff]

end Sys2Proof

namespace Sys2Proof.Machine

/-- A word that the decoder rejects for its opcode is sampled and raises Fatal(ILLEGAL_OPCODE). -/
theorem step_of_illegalOpcode {s : State} {c : Command} {rest : List HostEvent} (hf : s.FATAL = false)
    (hp : s.pending = .issue c :: rest) (hd : decode c.word = .illegalOpcode) :
    step s = .next ((s.sample c rest).raiseFatal .illegalOpcode) := by
  rw [step_of_accepted hf hp, hd]

/-- A word that the decoder rejects for its form is sampled and raises Fatal(ILLEGAL_FORM). -/
theorem step_of_illegalForm {s : State} {c : Command} {rest : List HostEvent} (hf : s.FATAL = false)
    (hp : s.pending = .issue c :: rest) (hd : decode c.word = .illegalForm) :
    step s = .next ((s.sample c rest).raiseFatal .illegalForm) := by
  rw [step_of_accepted hf hp, hd]

/-- Settles O23: the decoder rejects the word for its opcode before any other field is looked at. -/
theorem undefinedOpcodeIsFatal : Obligations.UndefinedOpcodeIsFatal := by
  intro s c rest hf hp hop
  exact step_of_illegalOpcode hf hp (decode_of_undefinedOpcode hop)

/-- Settles O24: in either format the decoder rejects the word for its form, so no index is ever checked. -/
theorem nonzeroReservedFieldIsFatal : Obligations.NonzeroReservedFieldIsFatal := by
  rintro s c rest hf hp (⟨hop, hr⟩ | ⟨hop, hr⟩)
  · exact step_of_illegalForm hf hp (decode_of_nonzero_formatN hop hr)
  · exact step_of_illegalForm hf hp (decode_of_nonzero_formatI hop hr)

end Sys2Proof.Machine
end

section
/-! PROOFS. The data buses of a command: the lanes of `CD` it ignores (spec/30_encoding.md R65, R69) and the response it
delivers (R66). -/

namespace Sys2Proof.Machine

/-! ### The ignored lanes of the command data -/

/-- The write-backs do not look at the sampled data. -/
theorem writeBack_replaceData (order : List Slot) (ix : IdxQuad) (r : Quad) (s : State) (d : BusData) :
    writeBack order ix r { s with CD := d } = { writeBack order ix r s with CD := d } := by
  induction order generalizing s with
  | nil => rfl
  | cons p ps ih => exact ih (s.writeWord (ix.at p) (r.at p))

/-- AQR ignores all four lanes (R65). -/
theorem execAqr_replaceData {x y z w : IdxField} {s t : State} (d : BusData) (h : execAqr x y z w s = .next t) :
    execAqr x y z w { s with CD := d } = .next { t with CD := d } := by
  obtain ⟨hf, ⟨ix, hix, ⟨hv, rfl⟩ | ⟨hv, rfl⟩⟩ | ⟨hr, rfl⟩⟩ := execAqr_eq_next.1 h
  · refine execAqr_eq_next.2 ⟨hf, .inl ⟨ix, hix, .inl ⟨hv, ?_⟩⟩⟩
    rw [writeBack_replaceData]
    rfl
  · exact execAqr_eq_next.2 ⟨hf, .inl ⟨ix, hix, .inr ⟨hv, rfl⟩⟩⟩
  · exact execAqr_eq_next.2 ⟨hf, .inr ⟨hr, rfl⟩⟩

/-- GET ignores all four lanes (R65). -/
theorem execGet_replaceData {i : IdxField} {s t : State} (d : BusData) (h : execGet i s = .next t) :
    execGet i { s with CD := d } = .next { t with CD := d } := by
  obtain ⟨hf, ⟨n, hn, ⟨hv, rfl⟩ | ⟨hv, rfl⟩⟩ | ⟨hr, rfl⟩⟩ := execGet_eq_next.1 h
  · exact execGet_eq_next.2 ⟨hf, .inl ⟨n, hn, .inl ⟨hv, rfl⟩⟩⟩
  · exact execGet_eq_next.2 ⟨hf, .inl ⟨n, hn, .inr ⟨hv, rfl⟩⟩⟩
  · exact execGet_eq_next.2 ⟨hf, .inr ⟨hr, rfl⟩⟩

/-- SET ignores all lanes but lane 0 (R65). -/
theorem execSet_replaceData {i : IdxField} {s t : State} {d : BusData} (hd : lane d 0 = lane s.CD 0)
    (h : execSet i s = .next t) : execSet i { s with CD := d } = .next { t with CD := d } := by
  obtain ⟨hf, ⟨n, hn, rfl⟩ | ⟨hr, rfl⟩⟩ := execSet_eq_next.1 h
  · refine execSet_eq_next.2 ⟨hf, .inl ⟨n, hn, ?_⟩⟩
    rw [hd]
    rfl
  · exact execSet_eq_next.2 ⟨hf, .inr ⟨hr, rfl⟩⟩

/-- Settles O39: each of the three commands, in each of its outcomes, leaves the same state but for the sampled data. -/
theorem ignoredLanesHaveNoEffect : Obligations.IgnoredLanesHaveNoEffect := by
  rintro s t i d h (⟨x, y, z, w, rfl⟩ | ⟨n, rfl⟩ | ⟨n, rfl, hd⟩)
  · exact execAqr_replaceData d h
  · exact execGet_replaceData d h
  · exact execSet_replaceData hd h

/-! ### The response of a command -/

/-- The response of a command that ends Done (R66); a GET with no word to its index never ends Done. -/
def doneResponse (s : State) : Instr → BusData
  | .qr => busOfQuad (qr (lanesOf s.CD))
  | .aqr _ _ _ _ => 0#128
  | .get i => ((wordIdx i).map fun n => busOfWord (s.word n)).getD 0#128
  | .set _ => 0#128

theorem doneResponse_get {s : State} {i : IdxField} {n : WordIdx} (hi : i.toNat = n.1) :
    doneResponse s (.get i) = busOfWord (s.word n) := by
  simp [doneResponse, wordIdx_eq_some.2 hi]

/-- A command that answers a next state ends Done and delivers its one response, or ends Fatal and delivers none (R66). -/
theorem exec_responses {i : Instr} {s t : State} (h : exec i s = .next t) :
    (t.FATAL = false ∧ t.responses = s.responses ++ [doneResponse s i]) ∨
    (t.FATAL = true ∧ t.responses = s.responses) := by
  cases i with
  | qr =>
    obtain ⟨hf, rfl⟩ := execQr_eq_next.1 h
    exact .inl ⟨hf, rfl⟩
  | aqr x y z w =>
    obtain ⟨hf, ⟨ix, -, ⟨-, rfl⟩ | ⟨-, rfl⟩⟩ | ⟨-, rfl⟩⟩ := execAqr_eq_next.1 h
    · rw [writeBack_eq]
      exact .inl ⟨hf, rfl⟩
    · exact .inr ⟨rfl, rfl⟩
    · exact .inr ⟨rfl, rfl⟩
  | get n =>
    obtain ⟨hf, ⟨m, hm, ⟨-, rfl⟩ | ⟨-, rfl⟩⟩ | ⟨-, rfl⟩⟩ := execGet_eq_next.1 h
    · rw [doneResponse_get hm]
      exact .inl ⟨hf, rfl⟩
    · exact .inr ⟨rfl, rfl⟩
    · exact .inr ⟨rfl, rfl⟩
  | set n =>
    obtain ⟨hf, ⟨m, -, rfl⟩ | ⟨-, rfl⟩⟩ := execSet_eq_next.1 h
    · exact .inl ⟨hf, rfl⟩
    · exact .inr ⟨rfl, rfl⟩

/-- An accepted command that ends Done was decoded and delivered its one response; one that ends Fatal, in the decoder or
in its execution, delivered none (R66). -/
theorem step_responses {s t : State} {c : Command} {rest : List HostEvent} (hf : s.FATAL = false)
    (hp : s.pending = .issue c :: rest) (h : step s = .next t) :
    (∃ i, decode c.word = .command i ∧ t.FATAL = false ∧
      t.responses = s.responses ++ [doneResponse (s.sample c rest) i]) ∨
    (t.FATAL = true ∧ t.responses = s.responses) := by
  cases hd : decode c.word with
  | illegalForm =>
    rw [step_of_illegalForm hf hp hd, next_eq_next] at h
    subst h
    exact .inr ⟨rfl, rfl⟩
  | illegalOpcode =>
    rw [step_of_illegalOpcode hf hp hd, next_eq_next] at h
    subst h
    exact .inr ⟨rfl, rfl⟩
  | command i =>
    rw [step_of_accepted hf hp, hd] at h
    exact (exec_responses h).imp_left fun hr => ⟨i, rfl, hr⟩

/-- Taking a response of QR apart gives back the quadruple it was put together from. -/
theorem lanesOf_busOfQuad (q : Quad) : lanesOf (busOfQuad q) = q := by
  obtain ⟨ha, hb, hc, hd⟩ := busOf_lanes q.a q.b q.c q.d
  simp only [lanesOf, busOfQuad, ha, hb, hc, hd]

/-- Settles O40: the response of a Done command is `doneResponse`, read lane by lane for each command. -/
theorem oneResponsePerDoneCommand : Obligations.OneResponsePerDoneCommand := by
  intro s t c rest hf hp h
  obtain ⟨i, hd, hdone, hr⟩ | ⟨hfatal, hr⟩ := step_responses hf hp h
  · refine ⟨fun ht => by simp [hdone] at ht, fun _ => ⟨_, hr, ?_⟩⟩
    rw [hd]
    refine ⟨?_, ?_, ?_, ?_⟩
    · rintro ⟨⟩
      exact lanesOf_busOfQuad _
    · rintro i n ⟨⟩ hn
      rw [doneResponse_get hn]
      exact busOfWord_lanes _
    · rintro i ⟨⟩
      rfl
    · rintro x y z w ⟨⟩
      rfl
  · exact ⟨fun _ => hr, fun ht => by simp [hfatal] at ht⟩

end Sys2Proof.Machine
end

section
/-! PROOFS. The word operations (spec/40_word_primitives.md): addition is the exact sum reduced (R80), and left rotation is
the document's formula and moves every bit (R82). -/

namespace Sys2Proof.Machine

/-- Addition on exact integers (R80). -/
theorem add32_toNat (p q : Word) : (add32 p q).toNat = (p.toNat + q.toNat) % 2 ^ 32 :=
  BitVec.toNat_ofNat _ _

/-- Rotation on exact integers, the shifts written as a product and a quotient (R82). -/
theorem rotl32_toNat (p : Word) (n : RotAmt) :
    (rotl32 p n).toNat = ((p.toNat * 2 ^ n.1) ||| (p.toNat / 2 ^ (32 - n.1))) % 2 ^ 32 := by
  rw [rotl32, BitVec.toNat_ofNat, Nat.shiftLeft_eq, Nat.shiftRight_eq_div_pow]

/-- Rotation bit by bit (R82): below place `n` stand the bits that left at the top, from place `n` up the bits that moved
without wrapping. -/
theorem rotl32_getLsbD (p : Word) (n : RotAmt) (k : Fin 32) :
    (rotl32 p n).getLsbD k.1 = p.getLsbD ((k.1 + 32 - n.1) % 32) := by
  obtain ⟨n, hn1, hn31⟩ := n
  obtain ⟨k, hk⟩ := k
  rw [rotl32_eq_rotateLeft, BitVec.getLsbD_rotateLeft_of_le (show n < 32 by omega)]
  by_cases hkn : k < n
  · have hplace : (k + 32 - n) % 32 = 32 - n + k := by omega
    simp [hkn, hplace]
  · have hplace : (k + 32 - n) % 32 = k - n := by omega
    simp [hkn, hk, hplace]

/-- Settles O8: the formula is the definition of `rotl32`, and each bit is traced through the two halves of the word. -/
theorem rotationMovesEveryBit : Obligations.RotationMovesEveryBit :=
  ⟨fun p n => ⟨rotl32_toNat p n, rotl32_getLsbD p n⟩, by decide⟩

/-- Settles O6: zero and commutativity are those of the library's addition; the fixed sums are computed. -/
theorem additionIsExactSumModulo : Obligations.AdditionIsExactSumModulo := by
  refine ⟨add32_toNat, fun p => ?_, fun p q => ?_, by decide⟩
  · rw [add32_eq_add, BitVec.add_zero]
  · rw [add32_eq_add, add32_eq_add, BitVec.add_comm]

end Sys2Proof.Machine
end

section
/-! PROOFS. The state permutation engine (spec/42_state_engine.md): the range test of the indices (R108) and the frame of
AQR (R104). -/

namespace Sys2Proof

/-- An index field out of range, as a comparison with the last index (R108). -/
theorem IdxField.inRange_eq_false {f : IdxField} : f.inRange = false ↔ 15 < f.toNat := by
  rw [IdxField.inRange, decide_eq_false_iff_not, Nat.not_lt]
  exact Iff.rfl

/-- An AQR is not well formed exactly when one of its four indices is out of range. -/
theorem Instr.wellFormed_aqr_eq_false {x y z w : IdxField} : (Instr.aqr x y z w).wellFormed = false ↔
    (15 < x.toNat ∨ 15 < y.toNat ∨ 15 < z.toNat ∨ 15 < w.toNat) := by
  simp only [Instr.wellFormed, Bool.and_eq_false_iff, IdxField.inRange_eq_false, or_assoc]

end Sys2Proof

namespace Sys2Proof.Machine

/-! ### The write-back leaves all but the words -/

@[simp] theorem writeBack_V (order : List Slot) (ix : IdxQuad) (r : Quad) (s : State) :
    (writeBack order ix r s).V = s.V := by
  rw [writeBack_eq]

@[simp] theorem writeBack_FATAL (order : List Slot) (ix : IdxQuad) (r : Quad) (s : State) :
    (writeBack order ix r s).FATAL = s.FATAL := by
  rw [writeBack_eq]

@[simp] theorem writeBack_CAUSE (order : List Slot) (ix : IdxQuad) (r : Quad) (s : State) :
    (writeBack order ix r s).CAUSE = s.CAUSE := by
  rw [writeBack_eq]

@[simp] theorem writeBack_FINFO (order : List Slot) (ix : IdxQuad) (r : Quad) (s : State) :
    (writeBack order ix r s).FINFO = s.FINFO := by
  rw [writeBack_eq]

@[simp] theorem State.word_respond (s : State) (rd : BusData) (j : WordIdx) : (s.respond rd).word j = s.word j := rfl

/-- A word that no operand position names keeps its value (R104). -/
theorem word_writeBack_of_ne {ix : IdxQuad} {j : WordIdx} (hx : j ≠ ix.x) (hy : j ≠ ix.y) (hz : j ≠ ix.z)
    (hw : j ≠ ix.w) (r : Quad) (s : State) : (writeBack Config.overlapWriteOrder ix r s).word j = s.word j := by
  rw [word_writeBack, if_neg hw, if_neg hz, if_neg hy, if_neg hx]

/-- An AQR that ends Done had its four indices in range and left the write-back of the quarter-round (R101). -/
theorem execAqr_done {x y z w : IdxField} {s t : State} (h : execAqr x y z w s = .next t) (ht : t.FATAL = false) :
    ∃ ix, AqrIdx x y z w ix ∧ t = (writeBack Config.overlapWriteOrder ix (qr (s.quad ix)) s).respond 0#128 := by
  obtain ⟨-, ⟨ix, hix, ⟨-, rfl⟩ | ⟨-, rfl⟩⟩ | ⟨-, rfl⟩⟩ := execAqr_eq_next.1 h
  · exact ⟨ix, hix, rfl⟩
  · simp at ht
  · simp at ht

/-- Settles O20: an AQR that ends Done leaves a write-back, and a word that the fields do not name is none of those it
writes. -/
theorem aqrDoesNotInterfere : Obligations.AqrDoesNotInterfere := by
  intro s t x y z w h ht
  obtain ⟨ix, ⟨hx, hy, hz, hw⟩, rfl⟩ := execAqr_done h ht
  refine ⟨fun j jx jy jz jw => ?_, by simp⟩
  rw [hx] at jx
  rw [hy] at jy
  rw [hz] at jz
  rw [hw] at jw
  exact word_writeBack_of_ne (Fin.ne_of_val_ne jx) (Fin.ne_of_val_ne jy) (Fin.ne_of_val_ne jz) (Fin.ne_of_val_ne jw) _ s

/-! ### The range test -/

theorem Cause.code_injective : Function.Injective Cause.code := by
  intro c c'
  cases c <;> cases c' <;> decide

/-- Fatal entry records which fault it was. -/
theorem State.raiseFatal_inj {s : State} {c c' : Cause} (h : s.raiseFatal c = s.raiseFatal c') : c = c' :=
  Cause.code_injective (congrArg State.CAUSE h)

/-- Fatal entry is told from a response by `FATAL`. -/
theorem State.raiseFatal_ne_respond {s t : State} {c : Cause} {rd : BusData} (ht : t.FATAL = false) :
    s.raiseFatal c ≠ t.respond rd := by
  intro h
  have hF : true = t.FATAL := congrArg State.FATAL h
  simp [ht] at hF

/-- The range test of R108, one for every command: Fatal(INDEX_RANGE) exactly when an index is out of range, whatever the
valid bits are. -/
theorem exec_eq_indexRange {i : Instr} {s : State} (hf : s.FATAL = false) :
    exec i s = .next (s.raiseFatal .indexRange) ↔ i.wellFormed = false := by
  cases i with
  | qr =>
    refine ⟨fun h => ?_, fun h => by cases h⟩
    obtain ⟨-, ht⟩ := execQr_eq_next.1 h
    exact absurd ht (State.raiseFatal_ne_respond hf)
  | aqr x y z w =>
    refine ⟨fun h => ?_, fun h => execAqr_of_outOfRange h hf⟩
    obtain ⟨-, ⟨ix, -, ⟨-, ht⟩ | ⟨-, ht⟩⟩ | ⟨hr, -⟩⟩ := execAqr_eq_next.1 h
    · exact absurd ht (State.raiseFatal_ne_respond (by simpa using hf))
    · cases State.raiseFatal_inj ht
    · exact hr
  | get n =>
    refine ⟨fun h => ?_, fun h => execGet_eq_next.2 ⟨hf, .inr ⟨h, rfl⟩⟩⟩
    obtain ⟨-, ⟨m, -, ⟨-, ht⟩ | ⟨-, ht⟩⟩ | ⟨hr, -⟩⟩ := execGet_eq_next.1 h
    · exact absurd ht (State.raiseFatal_ne_respond hf)
    · cases State.raiseFatal_inj ht
    · exact hr
  | set n =>
    refine ⟨fun h => ?_, fun h => execSet_eq_next.2 ⟨hf, .inr ⟨h, rfl⟩⟩⟩
    obtain ⟨-, ⟨m, -, ht⟩ | ⟨hr, -⟩⟩ := execSet_eq_next.1 h
    · exact absurd ht (State.raiseFatal_ne_respond hf)
    · exact hr

/-- Settles O25: the one range test, with well-formedness written out for each command. -/
theorem indexAboveFifteenIsFatal : Obligations.IndexAboveFifteenIsFatal := by
  refine ⟨fun s x y z w hf => ?_, fun s i hf => ?_, fun s i hf => ?_⟩
  · exact Instr.wellFormed_aqr_eq_false.symm.trans (exec_eq_indexRange hf).symm
  · exact IdxField.inRange_eq_false.symm.trans (exec_eq_indexRange (i := .get i) hf).symm
  · exact IdxField.inRange_eq_false.symm.trans (exec_eq_indexRange (i := .set i) hf).symm

end Sys2Proof.Machine
end

section
/-! PROOFS. The testbench's checks (spec/44_testbench.md): rotation is invertible (R148). -/

namespace Sys2Proof.Machine

/-- Two rotations bit by bit: the places bits come from add up modulo 32. -/
theorem rotl32_rotl32_getLsbD (p : Word) (m n : RotAmt) (k : Fin 32) :
    (rotl32 (rotl32 p m) n).getLsbD k.1 = p.getLsbD ((k.1 + 64 - (m.1 + n.1)) % 32) := by
  obtain ⟨-, hm⟩ := m.2
  obtain ⟨-, hn⟩ := n.2
  have hplace : ((k.1 + 32 - n.1) % 32 + 32 - m.1) % 32 = (k.1 + 64 - (m.1 + n.1)) % 32 := by omega
  calc (rotl32 (rotl32 p m) n).getLsbD k.1
      = (rotl32 p m).getLsbD ((k.1 + 32 - n.1) % 32) := rotl32_getLsbD _ n k
    _ = p.getLsbD (((k.1 + 32 - n.1) % 32 + 32 - m.1) % 32) :=
        rotl32_getLsbD p m ⟨_, Nat.mod_lt _ (by decide)⟩
    _ = p.getLsbD ((k.1 + 64 - (m.1 + n.1)) % 32) := by rw [hplace]

/-- Rotations whose amounts add up to the word's width cancel. -/
theorem rotl32_rotl32_of_add_eq {m n : RotAmt} (h : m.1 + n.1 = 32) (p : Word) : rotl32 (rotl32 p m) n = p := by
  apply BitVec.eq_of_getLsbD_eq
  intro k hk
  have hplace : (k + 64 - (m.1 + n.1)) % 32 = k := by omega
  rw [rotl32_rotl32_getLsbD p m n ⟨k, hk⟩, hplace]

/-- Settles O9: each of the four amounts and its outer amount add up to 32. -/
theorem rotationIsInvertible : Obligations.RotationIsInvertible := fun x =>
  ⟨rotl32_rotl32_of_add_eq rfl x, rotl32_rotl32_of_add_eq rfl x, rotl32_rotl32_of_add_eq rfl x,
    rotl32_rotl32_of_add_eq rfl x⟩

end Sys2Proof.Machine
end

section
/-! PROOFS. Faults (spec/60_exceptions.md): the priority of the causes (R162), fatal entry (R163), and the commands that the
fatal state does not take (R166). -/

namespace Sys2Proof.Machine

/-! ### The valid check, said of index fields -/

/-- In range, `readable` is the valid bit of the word that the field names. -/
theorem readable_eq_valid {s : State} {f : IdxField} {n : WordIdx} (h : f.toNat = n.1) : readable s.V f = s.valid n := by
  rw [readable, h, State.valid]

/-- The four words that an AQR reads are written exactly when its four fields are readable. -/
theorem allValid_eq_readable {s : State} {x y z w : IdxField} {ix : IdxQuad} (h : AqrIdx x y z w ix) :
    (Instr.aqr x y z w).reads.all (readable s.V) = s.allValid ix := by
  obtain ⟨hx, hy, hz, hw⟩ := h
  simp only [Instr.reads, List.all_cons, List.all_nil, readable_eq_valid hx, readable_eq_valid hy, readable_eq_valid hz,
    readable_eq_valid hw, State.allValid, Bool.and_true, Bool.and_assoc]

theorem exists_wordIdx_of_inRange {f : IdxField} (h : f.inRange = true) : ∃ n : WordIdx, f.toNat = n.1 := by
  obtain ⟨n, hn⟩ := inRange_eq_true.1 h
  exact ⟨n, wordIdx_eq_some.1 hn⟩

/-! ### The priority of the faults -/

/-- A command with its indices in range ends Done, unless it reads a word that nothing has written (R100 step 4). -/
theorem exec_of_wellFormed {i : Instr} {s : State} (hf : s.FATAL = false) (hi : i.wellFormed = true) :
    ∃ done : State, done.FATAL = false ∧
      exec i s = .next (if i.reads.all (readable s.V) then done else s.raiseFatal .uninitRead) := by
  cases i with
  | qr => exact ⟨s.respond (busOfQuad (qr (lanesOf s.CD))), hf, execQr_eq_next.2 ⟨hf, rfl⟩⟩
  | aqr x y z w =>
    obtain ⟨ix, hix⟩ := (aqrIdx_or x y z w).resolve_right (by simp [hi])
    refine ⟨(writeBack Config.overlapWriteOrder ix (qr (s.quad ix)) s).respond 0#128, by simpa using hf, ?_⟩
    rw [exec, execAqr_of_idx hix hf, allValid_eq_readable hix, apply_ite Host.Outcome.next]
  | get f =>
    obtain ⟨n, hn⟩ := exists_wordIdx_of_inRange hi
    refine ⟨s.respond (busOfWord (s.word n)), hf, execGet_eq_next.2 ⟨hf, .inl ⟨n, hn, ?_⟩⟩⟩
    cases hv : s.valid n <;> simp [Instr.reads, readable_eq_valid hn, hv]
  | set f =>
    obtain ⟨n, hn⟩ := exists_wordIdx_of_inRange hi
    exact ⟨((s.writeWord n (lane s.CD 0)).setValid n).respond 0#128, hf, execSet_eq_next.2 ⟨hf, .inl ⟨n, hn, rfl⟩⟩⟩

/-- The fault of a word that decodes to a command: the range check comes before the valid check (R162). -/
theorem faultOf_of_command {V : BitVec 16} {cw : CmdWord} {i : Instr} (h : decode cw = .command i) :
    faultOf V cw =
      if i.wellFormed then if i.reads.all (readable V) then none else some .uninitRead else some .indexRange := by
  rw [faultOf, h]

/-- The step that accepts a command takes fatal entry with the fault that the priority of R162 gives, and ends Done where it
gives none. -/
theorem step_eq_faultOf {s : State} {c : Command} {rest : List HostEvent} (hf : s.FATAL = false)
    (hp : s.pending = .issue c :: rest) :
    ∃ done : State, done.FATAL = false ∧
      step s = .next ((faultOf s.V c.word).elim done (s.sample c rest).raiseFatal) := by
  cases hd : decode c.word with
  | illegalOpcode => exact ⟨s, hf, by rw [step_of_illegalOpcode hf hp hd, faultOf, hd, Option.elim]⟩
  | illegalForm => exact ⟨s, hf, by rw [step_of_illegalForm hf hp hd, faultOf, hd, Option.elim]⟩
  | command i =>
    have hstep : step s = exec i (s.sample c rest) := by rw [step_of_accepted hf hp, hd]
    rw [hstep, faultOf_of_command hd]
    cases hi : i.wellFormed with
    | false => exact ⟨s, hf, (exec_eq_indexRange (s := s.sample c rest) hf).2 hi⟩
    | true =>
      obtain ⟨done, hdone, hexec⟩ := exec_of_wellFormed (s := s.sample c rest) hf hi
      refine ⟨done, hdone, ?_⟩
      rw [hexec, State.sample_V]
      cases i.reads.all (readable s.V) <;> rfl

/-- Settles O27: the step is fatal entry with the fault of R162's priority, and Done where there is none. -/
theorem firstFailingCheckWins : Obligations.FirstFailingCheckWins := by
  intro s c rest hf hp
  obtain ⟨done, hdone, hstep⟩ := step_eq_faultOf hf hp
  refine ⟨fun e he => ?_, fun hnone => ⟨done, ?_, hdone⟩⟩
  · rw [hstep, he]
    rfl
  · rw [hstep, hnone]
    rfl

/-! ### Fatal entry -/

/-- The codes of R161 are 1 to 4. -/
theorem Cause.code_mem (e : Cause) : e.code = 1#4 ∨ e.code = 2#4 ∨ e.code = 3#4 ∨ e.code = 4#4 := by
  cases e <;> decide

/-- A step into the fatal state is the fatal entry of the command that the host presented. -/
theorem step_into_fatal {s t : State} (h : step s = .next t) (hf : s.FATAL = false) (ht : t.FATAL = true) :
    ∃ c rest e, s.pending = .issue c :: rest ∧ faultOf s.V c.word = some e ∧ t = (s.sample c rest).raiseFatal e := by
  obtain ⟨-, rfl⟩ | ⟨rest, -, rfl⟩ | ⟨c, rest, -, hp, -⟩ := step_eq_next h
  · simp [hf] at ht
  · simp at ht
  · obtain ⟨done, hdone, hstep⟩ := step_eq_faultOf hf hp
    rw [hstep, next_eq_next] at h
    cases he : faultOf s.V c.word with
    | none =>
      rw [he, Option.elim] at h
      simp [h, hdone] at ht
    | some e =>
      rw [he, Option.elim] at h
      exact ⟨c, rest, e, hp, he, h⟩

/-- Settles O28: the step is the fatal entry of the command presented, and its fields and outputs are read off. -/
theorem fatalEntryWritesOnlyTheFaultRegisters : Obligations.FatalEntryWritesOnlyTheFaultRegisters := by
  intro s t h hf ht
  obtain ⟨c, rest, e, hp, he, rfl⟩ := step_into_fatal h hf ht
  exact ⟨c, rest, e, hp, he, rfl, e.code_mem, rfl⟩

/-! ### The fatal state takes no command -/

theorem whenAccepting_of_fatal {s : State} (hf : s.FATAL = true) (k : Answer) :
    whenAccepting s k = .fault .notAccepted := by
  rw [whenAccepting, if_pos hf]

/-- Every command begins with step 1 of R100, so none has a meaning in the fatal state (R166). -/
theorem exec_of_fatal (i : Instr) {s : State} (hf : s.FATAL = true) : exec i s = .fault .notAccepted := by
  cases i with
  | qr => exact whenAccepting_of_fatal hf _
  | aqr x y z w => exact whenAccepting_of_fatal hf _
  | get f => exact whenAccepting_of_fatal hf _
  | set f => exact whenAccepting_of_fatal hf _

/-- A command presented in the fatal state, with no Reset behind it, has no step (R166). -/
theorem step_of_stuck {s : State} {c : Command} {rest : List HostEvent} (hf : s.FATAL = true)
    (hp : s.pending = .issue c :: rest) (hr : afterReset rest = none) : step s = .fault .notAccepted := by
  simp only [step, fetch, hp, hf, hr, if_true]

/-- Settles O29: `cmd_ready` is the negation of `FATAL`, and neither a meaning nor a step takes the command. -/
theorem noCommandIsAcceptedInTheFatalState : Obligations.NoCommandIsAcceptedInTheFatalState := by
  refine ⟨fun s hf => ?_, fun i s hf => exec_of_fatal i hf, fun s cs hf hne hp => ?_⟩
  · rw [State.outputs, hf]
    rfl
  · cases cs with
    | nil => exact absurd rfl hne
    | cons c cs => exact step_of_stuck hf hp (afterReset_issueAll cs)

end Sys2Proof.Machine
end

section
/-! PROOFS. The encoder and the decoder (spec/30_encoding.md): each undoes the other (R72), the rows of the opcode table are
the decoder's own (R75), and how many words decode to each command (R72). -/

namespace Sys2Proof

/-! ### Decode and encode -/

/-- Settles O1: the decoder reads the five packed fields back, and the reserved ones are zero. -/
theorem decodeReadsBackEveryEncodedCommand : Obligations.DecodeReadsBackEveryEncodedCommand := by
  intro i
  cases i <;>
    simp [decode, encode, opField_packWord, xField_packWord, yField_packWord, zField_packWord, wField_packWord]

/-- A word is packed from its opcode and its other fields. -/
theorem eq_packWord {cw : CmdWord} {op : BitVec 8} {x y z w : IdxField} (ho : opField cw = op) (hx : xField cw = x)
    (hy : yField cw = y) (hz : zField cw = z) (hw : wField cw = w) : packWord op x y z w = cw := by
  subst ho hx hy hz hw
  exact packWord_fields cw

/-- Every word that is not rejected is the word of a command: the reserved fields of its format are zero. -/
theorem exists_encode_or_rejected (cw : CmdWord) :
    (∃ i, encode i = cw) ∨ decode cw = .illegalForm ∨ decode cw = .illegalOpcode := by
  by_cases hu : opField cw = 0x00#8 ∨ 5 ≤ (opField cw).toNat
  · exact .inr (.inr (decode_of_undefinedOpcode hu))
  have hop : opField cw = 0x01#8 ∨ opField cw = 0x02#8 ∨ opField cw = 0x03#8 ∨ opField cw = 0x04#8 := by bv_omega
  rcases hop with ho | ho | hI
  · by_cases hr : xField cw ≠ 0#8 ∨ yField cw ≠ 0#8 ∨ zField cw ≠ 0#8 ∨ wField cw ≠ 0#8
    · exact .inr (.inl (decode_of_nonzero_formatN ho hr))
    · simp only [not_or, not_not] at hr
      obtain ⟨hx, hy, hz, hw⟩ := hr
      exact .inl ⟨.qr, eq_packWord ho hx hy hz hw⟩
  · exact .inl ⟨.aqr _ _ _ _, eq_packWord ho rfl rfl rfl rfl⟩
  · by_cases hr : xField cw ≠ 0#8 ∨ yField cw ≠ 0#8 ∨ zField cw ≠ 0#8
    · exact .inr (.inl (decode_of_nonzero_formatI hI hr))
    · simp only [not_or, not_not] at hr
      obtain ⟨hx, hy, hz⟩ := hr
      rcases hI with ho | ho
      · exact .inl ⟨.get _, eq_packWord ho hx hy hz rfl⟩
      · exact .inl ⟨.set _, eq_packWord ho hx hy hz rfl⟩

@[simp] theorem decode_encode (i : Instr) : decode (encode i) = .command i :=
  decodeReadsBackEveryEncodedCommand i

/-- Settles O2: a word that decodes is the word of some command, and decoding that word gives this command. -/
theorem everyAcceptedWordIsTheWordOfItsCommand : Obligations.EveryAcceptedWordIsTheWordOfItsCommand := by
  intro cw i h
  obtain ⟨j, rfl⟩ | h' | h' := exists_encode_or_rejected cw
  · rw [decode_encode] at h
    cases h
    rfl
  · simp [h'] at h
  · simp [h'] at h

theorem decode_eq_command_iff {cw : CmdWord} {i : Instr} : decode cw = .command i ↔ cw = encode i :=
  ⟨fun h => (everyAcceptedWordIsTheWordOfItsCommand cw i h).symm, fun h => by rw [h, decode_encode]⟩

theorem encode_injective : Function.Injective encode := by
  intro i j h
  have hd := decode_encode i
  rw [h, decode_encode] at hd
  cases hd
  rfl

/-- Settles O3: the ten words are decoded. -/
theorem tableOfSampleWordsDecodes : Obligations.TableOfSampleWordsDecodes := by
  unfold Obligations.TableOfSampleWordsDecodes
  decide

/-! ### The opcode table -/

theorem packWord_inj {op op' : BitVec 8} {x x' y y' z z' w w' : IdxField}
    (h : packWord op x y z w = packWord op' x' y' z' w') : op = op' ∧ x = x' ∧ y = y' ∧ z = z' ∧ w = w' := by
  have ho := congrArg opField h
  have hx := congrArg xField h
  have hy := congrArg yField h
  have hz := congrArg zField h
  have hw := congrArg wField h
  rw [opField_packWord, opField_packWord] at ho
  rw [xField_packWord, xField_packWord] at hx
  rw [yField_packWord, yField_packWord] at hy
  rw [zField_packWord, zField_packWord] at hz
  rw [wField_packWord, wField_packWord] at hw
  exact ⟨ho, hx, hy, hz, hw⟩

/-- A mask acts on each field apart. -/
theorem packWord_and (op op' : BitVec 8) (x x' y y' z z' w w' : IdxField) :
    packWord op x y z w &&& packWord op' x' y' z' w'
      = packWord (op &&& op') (x &&& x') (y &&& y') (z &&& z') (w &&& w') := by
  apply BitVec.eq_of_getLsbD_eq
  intro k hk
  simp only [BitVec.getLsbD_and, packWord_getLsbD]
  repeat' split
  all_goals rfl

/-- What a selected word holds, when the row's pattern and mask are packed from fields (R75). -/
theorem fields_of_selects {m : String} {cw : CmdWord} {op op' : BitVec 8} {x x' y y' z z' w w' : IdxField}
    (h : OpRow.selects ⟨m, packWord op x y z w, packWord op' x' y' z' w'⟩ cw = true) :
    opField cw &&& op' = op ∧ xField cw &&& x' = x ∧ yField cw &&& y' = y ∧ zField cw &&& z' = z ∧
      wField cw &&& w' = w := by
  rw [OpRow.selects, decide_eq_true_eq, ← packWord_fields cw, packWord_and] at h
  simpa only [packWord_fields] using packWord_inj h

/-- A row of the table selects only words that decode to its command: the mask covers the opcode and the reserved fields. -/
theorem decode_of_selects {r : OpRow} {cw : CmdWord} (hr : r ∈ opcodeTable) (h : r.selects cw = true) :
    ∃ i, decode cw = .command i ∧ i.mnemonic = r.mnemonic := by
  simp only [opcodeTable, List.mem_cons, List.not_mem_nil, or_false] at hr
  have hall : ∀ f : BitVec 8, f &&& 0xff = f := fun f => BitVec.and_allOnes
  rcases hr with rfl | rfl | rfl | rfl
  · obtain ⟨ho, hx, hy, hz, hw⟩ := fields_of_selects (op := 1) (op' := 0xff) (x := 0) (x' := 0xff) (y := 0) (y' := 0xff)
      (z := 0) (z' := 0xff) (w := 0) (w' := 0xff) h
    rw [hall] at ho hx hy hz hw
    exact ⟨.qr, decode_eq_command_iff.2 (eq_packWord ho hx hy hz hw).symm, rfl⟩
  · obtain ⟨ho, -⟩ := fields_of_selects (op := 2) (op' := 0xff) (x := 0) (x' := 0) (y := 0) (y' := 0)
      (z := 0) (z' := 0) (w := 0) (w' := 0) h
    rw [hall] at ho
    exact ⟨.aqr _ _ _ _, decode_eq_command_iff.2 (eq_packWord ho rfl rfl rfl rfl).symm, rfl⟩
  · obtain ⟨ho, hx, hy, hz, -⟩ := fields_of_selects (op := 3) (op' := 0xff) (x := 0) (x' := 0xff) (y := 0) (y' := 0xff)
      (z := 0) (z' := 0xff) (w := 0) (w' := 0) h
    rw [hall] at ho hx hy hz
    exact ⟨.get _, decode_eq_command_iff.2 (eq_packWord ho hx hy hz rfl).symm, rfl⟩
  · obtain ⟨ho, hx, hy, hz, -⟩ := fields_of_selects (op := 4) (op' := 0xff) (x := 0) (x' := 0xff) (y := 0) (y' := 0xff)
      (z := 0) (z' := 0xff) (w := 0) (w' := 0) h
    rw [hall] at ho hx hy hz
    exact ⟨.set _, decode_eq_command_iff.2 (eq_packWord ho hx hy hz rfl).symm, rfl⟩

/-- The row of the table that bears a command's mnemonic selects the command's word (R75). -/
theorem exists_row_selects (i : Instr) : ∃ r ∈ opcodeTable, r.mnemonic = i.mnemonic ∧ r.selects (encode i) = true := by
  cases i with
  | qr => exact Laws.TableRow.qr
  | aqr x y z w => exact Laws.TableRow.aqr x y z w
  | get i => exact Laws.TableRow.get i
  | set i => exact Laws.TableRow.set i

/-- No two rows of the table bear the same mnemonic. -/
theorem mnemonic_inj_of_mem : ∀ r ∈ opcodeTable, ∀ r' ∈ opcodeTable, r.mnemonic = r'.mnemonic → r = r' := by
  decide

/-- The row of a command's mnemonic selects its word, and no other row does. -/
theorem selects_encode_iff {r : OpRow} (hr : r ∈ opcodeTable) (i : Instr) :
    r.selects (encode i) = true ↔ r.mnemonic = i.mnemonic := by
  constructor
  · intro h
    obtain ⟨j, hj, hm⟩ := decode_of_selects hr h
    rw [decode_encode] at hj
    cases hj
    exact hm.symm
  · intro h
    obtain ⟨r', hr', hm, hs⟩ := exists_row_selects i
    rwa [mnemonic_inj_of_mem r hr r' hr' (h.trans hm.symm)]

/-- Settles O4: on a command's word the table is filtered by the mnemonic, and a selected word always decodes. -/
theorem opcodeTableSelectsWhatDecodes : Obligations.OpcodeTableSelectsWhatDecodes := by
  refine fun cw => ⟨fun i h => ?_, fun h => ?_⟩
  · rw [decode_eq_command_iff.1 h]
    have hfilter : opcodeTable.filter (fun r => r.selects (encode i))
        = opcodeTable.filter (fun r => decide (r.mnemonic = i.mnemonic)) := by
      refine List.filter_congr fun r hr => ?_
      rw [Bool.eq_iff_iff, selects_encode_iff hr, decide_eq_true_eq]
    rw [hfilter]
    cases i <;> simp [opcodeTable, Instr.mnemonic]
  · refine List.filter_eq_nil_iff.2 fun r hr hs => ?_
    obtain ⟨i, hi, -⟩ := decode_of_selects hr hs
    simp [hi] at h

/-! ### Counting command words -/

/-- Where the words with a property are the words of a family of commands, each named once, there are as many. -/
theorem card_words {α : Type} {P : CmdWord → Prop} (f : α → Instr) (hf : Function.Injective f)
    (hP : ∀ cw, P cw ↔ ∃ a, decode cw = .command (f a)) : Nat.card { cw // P cw } = Nat.card α := by
  refine (Nat.card_congr (Equiv.ofBijective (fun a => ⟨encode (f a), (hP _).2 ⟨a, decode_encode _⟩⟩) ⟨?_, ?_⟩)).symm
  · intro a b h
    exact hf (encode_injective (congrArg Subtype.val h))
  · rintro ⟨cw, hcw⟩
    obtain ⟨a, ha⟩ := (hP cw).1 hcw
    exact ⟨a, Subtype.ext (decode_eq_command_iff.1 ha).symm⟩

theorem card_idxField : Nat.card IdxField = 256 :=
  (Nat.card_congr BitVec.equivFin.toEquiv).trans (Nat.card_fin _)

/-- An index field in range (R64). -/
abbrev IdxInRange := { f : IdxField // f.toNat ≤ 15 }

/-- The index fields in range are named by the sixteen word indices. -/
def idxInRangeEquiv : IdxInRange ≃ WordIdx where
  toFun f := ⟨f.1.toNat, Nat.lt_succ_of_le f.2⟩
  invFun n := ⟨BitVec.ofNat 8 n.1, by rw [Machine.idxField_toNat]; exact Nat.le_of_lt_succ n.2⟩
  left_inv f := Subtype.ext (by simp)
  right_inv n := Fin.ext (Machine.idxField_toNat n)

theorem card_idxInRange : Nat.card IdxInRange = 16 :=
  (Nat.card_congr idxInRangeEquiv).trans (Nat.card_fin _)

/-- Settles O5: the words of a command are counted by its operands, each of 256 values, of which 16 are in range. -/
theorem commandWordCounts : Obligations.CommandWordCounts := by
  refine ⟨?_, ?_, ?_, ?_, ?_, ?_, ?_⟩
  · rw [card_words (fun _ : Unit => .qr) (fun _ _ _ => rfl) fun cw => (exists_const _).symm, Nat.card_unique]
  · rw [card_words (fun p : IdxField × IdxField × IdxField × IdxField => .aqr p.1 p.2.1 p.2.2.1 p.2.2.2)
      (fun p q h => by simpa [Prod.ext_iff] using h) fun cw => by simp only [Prod.exists]]
    simp only [Nat.card_prod, card_idxField]
    rfl
  · rw [card_words Instr.get (fun i j h => by cases h; rfl) fun cw => Iff.rfl, card_idxField]
  · rw [card_words Instr.set (fun i j h => by cases h; rfl) fun cw => Iff.rfl, card_idxField]
  · rw [card_words (fun p : IdxInRange × IdxInRange × IdxInRange × IdxInRange =>
        .aqr p.1.1 p.2.1.1 p.2.2.1.1 p.2.2.2.1) (fun p q h => by simpa [Prod.ext_iff, Subtype.ext_iff] using h)
      fun cw => ⟨fun ⟨x, y, z, w, h, hx, hy, hz, hw⟩ => ⟨(⟨x, hx⟩, ⟨y, hy⟩, ⟨z, hz⟩, ⟨w, hw⟩), h⟩,
        fun ⟨(x, y, z, w), h⟩ => ⟨x, y, z, w, h, x.2, y.2, z.2, w.2⟩⟩]
    simp only [Nat.card_prod, card_idxInRange]
  · rw [card_words (fun i : IdxInRange => .get i.1) (fun i j h => by simpa [Subtype.ext_iff] using h)
      fun cw => ⟨fun ⟨i, h, hi⟩ => ⟨⟨i, hi⟩, h⟩, fun ⟨i, h⟩ => ⟨i, h, i.2⟩⟩, card_idxInRange]
  · rw [card_words (fun i : IdxInRange => .set i.1) (fun i j h => by simpa [Subtype.ext_iff] using h)
      fun cw => ⟨fun ⟨i, h, hi⟩ => ⟨⟨i, hi⟩, h⟩, fun ⟨i, h⟩ => ⟨i, h, i.2⟩⟩, card_idxInRange]

end Sys2Proof
end

section
/-! PROOFS. The word operations bit by bit (spec/40_word_primitives.md R81, R84, R85), and the quarter-round as two rounds of
one kind, each of which can be undone (spec/41_quarter_round.md R90, R91). -/

namespace Sys2Proof.Machine

/-- Settles O7: the bits are those of the library's exclusive or, and its laws are the library's. -/
theorem exclusiveOrComparesBits : Obligations.ExclusiveOrComparesBits := by
  refine ⟨fun p q k => ?_, fun p => ⟨?_, ?_, ?_⟩⟩
  · rw [xor32_eq_xor, BitVec.getLsbD_xor, bne_iff_ne]
  · rw [xor32_eq_xor, BitVec.xor_zero]
  · rw [xor32_eq_xor, BitVec.xor_self]
  · rw [xor32_eq_xor]
    exact BitVec.xor_allOnes

/-! ### Rotation -/

/-- Settles O10: both sides take each bit from the same place. -/
theorem rotationsCompose : Obligations.RotationsCompose := by
  intro p m n k h
  apply BitVec.eq_of_getLsbD_eq
  intro j hj
  have hplace : (j + 64 - (m.1 + n.1)) % 32 = (j + 32 - k.1) % 32 := by
    obtain ⟨-, hm⟩ := m.2
    obtain ⟨-, hn⟩ := n.2
    omega
  rw [rotl32_rotl32_getLsbD p m n ⟨j, hj⟩, rotl32_getLsbD p k ⟨j, hj⟩, hplace]

theorem twoPow_eq_ofNat (k : Nat) : BitVec.twoPow 32 k = BitVec.ofNat 32 (2 ^ k) := by
  apply BitVec.eq_of_toNat_eq
  rw [BitVec.toNat_twoPow, BitVec.toNat_ofNat]

/-- A single bit moves up by the amount, around the end of the word (R84). -/
theorem rotl32_twoPow (b : Fin 32) (n : RotAmt) :
    rotl32 (BitVec.twoPow 32 b.1) n = BitVec.twoPow 32 ((b.1 + n.1) % 32) := by
  apply BitVec.eq_of_getLsbD_eq
  intro j hj
  have hplace : b.1 = (j + 32 - n.1) % 32 ↔ (b.1 + n.1) % 32 = j := by
    obtain ⟨-, hn⟩ := n.2
    omega
  rw [rotl32_getLsbD _ n ⟨j, hj⟩, BitVec.getLsbD_twoPow, BitVec.getLsbD_twoPow]
  simp [hplace, Nat.mod_lt]

/-- The place that bit `k` of a rotated word comes from. -/
def rotlPlace (n : RotAmt) (k : Fin 32) : Fin 32 := ⟨(k.1 + 32 - n.1) % 32, Nat.mod_lt _ (by decide)⟩

theorem rotlPlace_bijective (n : RotAmt) : Function.Bijective (rotlPlace n) := by
  refine Finite.injective_iff_bijective.1 fun j k h => ?_
  obtain ⟨-, hn⟩ := n.2
  simp only [rotlPlace, Fin.mk.injEq] at h
  omega

/-- Rotation keeps the number of one bits, because it permutes the places (R84). -/
theorem card_bits_rotl32 (p : Word) (n : RotAmt) :
    (Finset.univ.filter fun k : Fin 32 => (rotl32 p n).getLsbD k.1 = true).card
      = (Finset.univ.filter fun k : Fin 32 => p.getLsbD k.1 = true).card := by
  refine Finset.card_equiv (Equiv.ofBijective _ (rotlPlace_bijective n)) fun k => ?_
  simp only [Finset.mem_filter, Finset.mem_univ, true_and, rotl32_getLsbD p n k]
  rfl

/-- The two parts of a word, exchanged by a rotation. -/
theorem rotl32_getLsbD_of_lt {p : Word} {n : RotAmt} {k : Nat} (hk : k < n.1) :
    (rotl32 p n).getLsbD k = p.getLsbD (32 - n.1 + k) := by
  obtain ⟨-, hn⟩ := n.2
  rw [rotl32_getLsbD p n ⟨k, by omega⟩]
  congr 1
  show (k + 32 - n.1) % 32 = _
  omega

theorem rotl32_getLsbD_of_le {p : Word} {n : RotAmt} {k : Nat} (hk : n.1 ≤ k) (hk32 : k < 32) :
    (rotl32 p n).getLsbD k = p.getLsbD (k - n.1) := by
  rw [rotl32_getLsbD p n ⟨k, hk32⟩]
  congr 1
  show (k + 32 - n.1) % 32 = _
  omega

/-- Rotation by `n` exchanges the upper `n` bits and the others (R84: for 16 the halves, for 8 the top byte). -/
theorem rotl32_eq_append {m : Nat} (n : RotAmt) (h : m + n.1 = 32) (p : Word) :
    rotl32 p n = (p.extractLsb' 0 m ++ p.extractLsb' m n.1).cast h := by
  apply BitVec.eq_of_getLsbD_eq
  intro k hk
  rw [BitVec.getLsbD_cast, BitVec.getLsbD_append]
  split
  case isTrue hkn =>
    rw [rotl32_getLsbD_of_lt hkn, BitVec.getLsbD_extractLsb', show 32 - n.1 = m by omega]
    simp [hkn]
  case isFalse hkn =>
    rw [rotl32_getLsbD_of_le (by omega) hk, BitVec.getLsbD_extractLsb', Nat.zero_add]
    simp [show k - n.1 < m by omega]

/-- Settles O11: the fixed words have one bit everywhere, the single bits move, the places are permuted, and the two parts of
the word change places. -/
theorem rotationCornerCases : Obligations.RotationCornerCases := by
  refine ⟨fun n => ⟨?_, ?_, ?_, ?_, fun p => card_bits_rotl32 p n⟩, fun p => ?_, fun p => ?_⟩
  · apply BitVec.eq_of_getLsbD_eq
    intro k hk
    rw [rotl32_getLsbD _ n ⟨k, hk⟩, BitVec.getLsbD_zero, BitVec.getLsbD_zero]
  · show rotl32 (BitVec.allOnes 32) n = BitVec.allOnes 32
    apply BitVec.eq_of_getLsbD_eq
    intro k hk
    rw [rotl32_getLsbD _ n ⟨k, hk⟩, BitVec.getLsbD_allOnes, BitVec.getLsbD_allOnes]
    simp [hk, Nat.mod_lt]
  · obtain ⟨-, hn⟩ := n.2
    have hplace : ((0 : Fin 32).1 + n.1) % 32 = n.1 := by simp; omega
    rw [← twoPow_eq_ofNat, ← hplace]
    exact rotl32_twoPow 0 n
  · obtain ⟨hn1, hn⟩ := n.2
    have hplace : ((31 : Fin 32).1 + n.1) % 32 = n.1 - 1 := by simp; omega
    rw [← twoPow_eq_ofNat, ← hplace]
    exact rotl32_twoPow 31 n
  · exact rotl32_eq_append ⟨16, by decide⟩ rfl p
  · exact rotl32_eq_append ⟨8, by decide⟩ rfl p

/-! ### The quarter-round -/

/-- Settles O12: the named values are those of the definition. -/
theorem quarterRoundByNamedIntermediates : Obligations.QuarterRoundByNamedIntermediates := by
  rintro a0 b0 c0 d0 a1 b1 c1 d1 a2 b2 c2 d2 rfl rfl rfl rfl rfl rfl rfl rfl
  rfl

/-- Half of a quarter-round: its steps 1 and 2, or its steps 3 and 4, told apart by the amounts (R90). -/
def halfRound (m n : RotAmt) (q : Quad) : Quad :=
  let a := add32 q.a q.b
  let d := rotl32 (xor32 q.d a) m
  let c := add32 q.c d
  let b := rotl32 (xor32 q.b c) n
  ⟨a, b, c, d⟩

theorem qr_eq_halfRounds (q : Quad) :
    qr q = halfRound ⟨8, by decide⟩ ⟨7, by decide⟩ (halfRound ⟨16, by decide⟩ ⟨12, by decide⟩ q) := rfl

theorem rotl32_injective (n : RotAmt) : Function.Injective fun p => rotl32 p n := by
  obtain ⟨hn1, hn⟩ := n.2
  intro p q h
  have hinv : ∀ x, rotl32 (rotl32 x n) ⟨32 - n.1, by omega⟩ = x :=
    rotl32_rotl32_of_add_eq (by simp; omega)
  rw [← hinv p, ← hinv q]
  exact congrArg (fun x => rotl32 x _) h

theorem add32_right_cancel {p q r : Word} (h : add32 p r = add32 q r) : p = q := by
  rw [add32_eq_add, add32_eq_add] at h
  exact BitVec.add_left_inj r |>.1 h

theorem xor32_right_cancel {p q r : Word} (h : xor32 p r = xor32 q r) : p = q := by
  rw [xor32_eq_xor, xor32_eq_xor] at h
  exact BitVec.xor_left_inj r |>.1 h

/-- A half round is undone from its last operation to its first: `b`, then `c`, then `d`, then `a` (R85, R90). -/
theorem halfRound_injective (m n : RotAmt) : Function.Injective (halfRound m n) := by
  rintro ⟨a, b, c, d⟩ ⟨a', b', c', d'⟩ h
  simp only [halfRound, Quad.mk.injEq] at h
  obtain ⟨ha, hb, hc, hd⟩ := h
  have eb : b = b' := by
    rw [hc] at hb
    exact xor32_right_cancel (rotl32_injective n hb)
  have ec : c = c' := by
    rw [hd] at hc
    exact add32_right_cancel hc
  have ed : d = d' := by
    rw [ha] at hd
    exact xor32_right_cancel (rotl32_injective m hd)
  have ea : a = a' := by
    rw [eb] at ha
    exact add32_right_cancel ha
  rw [ea, eb, ec, ed]

/-- Settles O13: the quarter-round is two half rounds, and neither loses anything. -/
theorem quarterRoundLosesNothing : Obligations.QuarterRoundLosesNothing := by
  intro p q h
  rw [qr_eq_halfRounds, qr_eq_halfRounds] at h
  exact halfRound_injective _ _ (halfRound_injective _ _ h)

end Sys2Proof.Machine
end

section
/-! PROOFS. What the four commands do (spec/41_quarter_round.md R94, spec/42_state_engine.md R101 to R107): their results,
their frames, and the reading of unwritten words (R25). -/

namespace Sys2Proof.Machine

/-! ### Index fields, words and valid bits -/

theorem toNat_idxField (n : WordIdx) : (idxField n).toNat = n.1 := idxField_toNat n

theorem eq_idxField_of_toNat {f : IdxField} {n : WordIdx} (h : f.toNat = n.1) : f = idxField n :=
  BitVec.eq_of_toNat_eq (h.trans (toNat_idxField n).symm)

theorem idxField_injective : Function.Injective idxField := by
  intro i j h
  have hn := congrArg BitVec.toNat h
  exact Fin.ext (by rwa [toNat_idxField, toNat_idxField] at hn)

@[simp] theorem State.valid_respond (s : State) (rd : BusData) (j : WordIdx) :
    (s.respond rd).valid j = s.valid j := rfl

@[simp] theorem State.valid_writeWord (s : State) (i j : WordIdx) (v : Word) :
    (s.writeWord i v).valid j = s.valid j := rfl

@[simp] theorem State.word_setValid (s : State) (i j : WordIdx) : (s.setValid i).word j = s.word j := rfl

@[simp] theorem State.word_raiseFatal (s : State) (c : Cause) (j : WordIdx) : (s.raiseFatal c).word j = s.word j := rfl

@[simp] theorem State.valid_raiseFatal (s : State) (c : Cause) (j : WordIdx) :
    (s.raiseFatal c).valid j = s.valid j := rfl

@[simp] theorem State.word_sample (s : State) (c : Command) (rest : List HostEvent) (j : WordIdx) :
    (s.sample c rest).word j = s.word j := rfl

@[simp] theorem State.valid_sample (s : State) (c : Command) (rest : List HostEvent) (j : WordIdx) :
    (s.sample c rest).valid j = s.valid j := rfl

/-- The valid bits are those of the sixteen words. -/
theorem validBits_ext {s t : State} (h : ∀ j, s.valid j = t.valid j) : s.V = t.V :=
  BitVec.eq_of_getLsbD_eq fun k hk => h ⟨k, hk⟩

/-- The words are the sixteen words. -/
theorem words_ext {s t : State} (h : ∀ j, s.word j = t.word j) : s.S = t.S :=
  Vector.ext fun k hk => h ⟨k, hk⟩

/-- A state is constructed when all sixteen words are written (R24). -/
theorem constructed_iff {s : State} : s.constructed ↔ ∀ j, s.valid j = true := by
  have hones : ∀ j : WordIdx, (0xffff#16).getLsbD j.1 = true := by decide
  constructor
  · intro h j
    rw [State.valid, h, hones]
  · intro h
    exact BitVec.eq_of_getLsbD_eq fun k hk => (h ⟨k, hk⟩).trans (hones ⟨k, hk⟩).symm

theorem allValid_eq_true {s : State} {ix : IdxQuad} : s.allValid ix = true ↔
    s.valid ix.x = true ∧ s.valid ix.y = true ∧ s.valid ix.z = true ∧ s.valid ix.w = true := by
  simp only [State.allValid, Bool.and_eq_true, and_assoc]

theorem allValid_eq_false {s : State} {ix : IdxQuad} : s.allValid ix = false ↔
    s.valid ix.x = false ∨ s.valid ix.y = false ∨ s.valid ix.z = false ∨ s.valid ix.w = false := by
  simp only [State.allValid, Bool.and_eq_false_iff, or_assoc]

/-! ### Every command completes -/

/-- Settles O14: the response is put together from the four results, lane by lane. -/
theorem qrCompletes : Obligations.QrCompletes := by
  intro s hf
  exact ⟨busOfQuad (qr (lanesOf s.CD)), _, _, _, _, execQr_eq_next.2 ⟨hf, rfl⟩, rfl, busOf_lanes _ _ _ _⟩

/-- Settles O15: with its checks passed, AQR leaves the write-back, whose words are known. -/
theorem aqrCompletes : Obligations.AqrCompletes := by
  intro s x y z w ix iy iz iw hf hx hy hz hw vx vy vz vw
  have hidx : AqrIdx x y z w ⟨ix, iy, iz, iw⟩ := ⟨hx, hy, hz, hw⟩
  have hvalid : s.allValid ⟨ix, iy, iz, iw⟩ = true := allValid_eq_true.2 ⟨vx, vy, vz, vw⟩
  refine ⟨_, execAqr_eq_next.2 ⟨hf, .inl ⟨_, hidx, .inl ⟨hvalid, rfl⟩⟩⟩, ?_, fun j => word_writeBack _ _ s j⟩
  rw [writeBack_eq]
  rfl

/-- Settles O16: with its checks passed, GET responds the word. -/
theorem getCompletes : Obligations.GetCompletes := by
  intro s i n hf hn hv
  exact ⟨busOfWord (s.word n), execGet_eq_next.2 ⟨hf, .inl ⟨n, hn, .inl ⟨hv, rfl⟩⟩⟩, busOfWord_lanes _⟩

/-- Settles O17: with its range check passed, SET writes one word and one valid bit. -/
theorem setCompletes : Obligations.SetCompletes := by
  intro s i n hf hn
  refine ⟨_, execSet_eq_next.2 ⟨hf, .inl ⟨n, hn, rfl⟩⟩, rfl, ?_, ?_, fun j hj => ⟨?_, ?_⟩⟩
  · simp [State.word_writeWord, lane]
  · simp [State.valid_setValid]
  · simp [State.word_writeWord, hj]
  · simp [State.valid_setValid, hj]

/-! ### What a command that answers a next state did to each word and valid bit -/

/-- A command leaves every word that it does not name among its writes (R23). -/
theorem exec_word_of_not_written {i : Instr} {s t : State} {j : WordIdx} (h : exec i s = .next t)
    (hj : idxField j ∉ i.writes) : t.word j = s.word j := by
  cases i with
  | qr =>
    obtain ⟨-, rfl⟩ := execQr_eq_next.1 h
    rfl
  | aqr x y z w =>
    obtain ⟨-, ⟨ix, ⟨hx, hy, hz, hw⟩, ⟨-, rfl⟩ | ⟨-, rfl⟩⟩ | ⟨-, rfl⟩⟩ := execAqr_eq_next.1 h
    · have hne : ∀ (f : IdxField) (n : WordIdx), f ∈ (Instr.aqr x y z w).writes → f.toNat = n.1 → j ≠ n := by
        rintro f n hf hn rfl
        exact hj (eq_idxField_of_toNat hn ▸ hf)
      exact word_writeBack_of_ne (hne x _ (by simp [Instr.writes]) hx) (hne y _ (by simp [Instr.writes]) hy)
        (hne z _ (by simp [Instr.writes]) hz) (hne w _ (by simp [Instr.writes]) hw) _ s
    · rfl
    · rfl
  | get f =>
    obtain ⟨-, ⟨n, -, ⟨-, rfl⟩ | ⟨-, rfl⟩⟩ | ⟨-, rfl⟩⟩ := execGet_eq_next.1 h <;> rfl
  | set f =>
    obtain ⟨-, ⟨n, hn, rfl⟩ | ⟨-, rfl⟩⟩ := execSet_eq_next.1 h
    · have hne : j ≠ n := by
        rintro rfl
        exact hj (by simp [Instr.writes, eq_idxField_of_toNat hn])
      simp [State.word_writeWord, hne]
    · rfl

/-- A command leaves every valid bit, but for the one that a SET of its word sets (R25). -/
theorem exec_valid {i : Instr} {s t : State} (h : exec i s = .next t) (j : WordIdx) :
    t.valid j = s.valid j ∨ (i = .set (idxField j) ∧ t.valid j = true) := by
  cases i with
  | qr =>
    obtain ⟨-, rfl⟩ := execQr_eq_next.1 h
    exact .inl rfl
  | aqr x y z w =>
    obtain ⟨-, ⟨ix, -, ⟨-, rfl⟩ | ⟨-, rfl⟩⟩ | ⟨-, rfl⟩⟩ := execAqr_eq_next.1 h
    · rw [writeBack_eq]
      exact .inl rfl
    · exact .inl rfl
    · exact .inl rfl
  | get f =>
    obtain ⟨-, ⟨n, -, ⟨-, rfl⟩ | ⟨-, rfl⟩⟩ | ⟨-, rfl⟩⟩ := execGet_eq_next.1 h <;> exact .inl rfl
  | set f =>
    obtain ⟨-, ⟨n, hn, rfl⟩ | ⟨-, rfl⟩⟩ := execSet_eq_next.1 h
    · by_cases hj : j = n
      · subst hj
        exact .inr ⟨by rw [eq_idxField_of_toNat hn], by simp [State.valid_setValid]⟩
      · exact .inl (by simp [State.valid_setValid, hj])
    · exact .inl rfl

/-- No command clears a valid bit (R25). -/
theorem exec_keeps_valid {i : Instr} {s t : State} {j : WordIdx} (h : exec i s = .next t) (hj : s.valid j = true) :
    t.valid j = true := by
  obtain hv | ⟨-, hv⟩ := exec_valid h j
  · rw [hv, hj]
  · exact hv

/-- The record of the commands is left to the host (R35). -/
theorem exec_keeps_record {i : Instr} {s t : State} (h : exec i s = .next t) :
    t.CW = s.CW ∧ t.CD = s.CD ∧ t.pending = s.pending ∧ t.resets = s.resets := by
  obtain ⟨rd, ht⟩ | ⟨c, rfl⟩ := exec_done_or_fatal h
  · rw [ht]
    exact ⟨rfl, rfl, rfl, rfl⟩
  · exact ⟨rfl, rfl, rfl, rfl⟩

/-- A command leaves the fault registers as they were, with `FATAL` 0, or it is fatal entry and nothing else (R164). -/
theorem exec_faultRegisters {i : Instr} {s t : State} (h : exec i s = .next t) :
    (t.FATAL = false ∧ t.CAUSE = s.CAUSE ∧ t.FINFO = s.FINFO) ∨ ∃ c, t = s.raiseFatal c := by
  have hf := exec_eq_next_accepting h
  refine (exec_done_or_fatal h).imp_left fun ⟨rd, ht⟩ => ?_
  rw [ht]
  exact ⟨hf, rfl, rfl⟩

/-- A command that ends Fatal changes no word and no valid bit, and delivers nothing (R163). -/
theorem exec_fatal_frame {i : Instr} {s t : State} (h : exec i s = .next t) (ht : t.FATAL = true) :
    t.S = s.S ∧ t.V = s.V ∧ t.responses = s.responses := by
  obtain ⟨hF, -⟩ | ⟨c, rfl⟩ := exec_faultRegisters h
  · simp [hF] at ht
  · exact ⟨rfl, rfl, rfl⟩

/-! ### Frames -/

/-- Settles O19: each outcome of QR and of GET is a response or fatal entry. -/
theorem readingCommandsChangeNoWord : Obligations.ReadingCommandsChangeNoWord := by
  refine ⟨fun s t h => ?_, fun i s t h => ?_⟩
  · obtain ⟨-, rfl⟩ := execQr_eq_next.1 h
    exact ⟨_, rfl⟩
  · obtain ⟨-, ⟨n, -, ⟨-, rfl⟩ | ⟨-, rfl⟩⟩ | ⟨-, rfl⟩⟩ := execGet_eq_next.1 h
    · exact .inl ⟨_, rfl⟩
    · exact .inr rfl
    · exact .inr rfl

/-- Settles O21: a word and a valid bit that SET does not name are kept, and fatal entry keeps all of them. -/
theorem writingCommandsChangeOnlyWhatTheyName : Obligations.WritingCommandsChangeOnlyWhatTheyName := by
  refine ⟨fun i s t h => ⟨fun j hj => ?_, fun ht => ?_, exec_fatal_frame h, exec_keeps_record h⟩,
    fun x y z w s t h => ⟨exec_fatal_frame h, exec_keeps_record h⟩⟩
  · have hne : idxField j ≠ i := fun e => hj (by rw [← e, toNat_idxField])
    refine ⟨exec_word_of_not_written h (by simpa [Instr.writes] using hne), ?_⟩
    exact (exec_valid h j).resolve_right fun ⟨hi, _⟩ => hne (Instr.set.inj hi).symm
  · obtain ⟨-, hregs⟩ | ⟨c, rfl⟩ := exec_faultRegisters h
    · exact hregs
    · simp at ht

/-! ### Reading unwritten words -/

/-- Settles O26: with the indices in range, the valid check decides; and SET has none. -/
theorem readingAnUnwrittenWordIsFatal : Obligations.ReadingAnUnwrittenWordIsFatal := by
  refine ⟨fun s x y z w ix iy iz iw hf hx hy hz hw hv => ?_, fun s i n hf hn hv => ?_, fun s t i h ht => ?_⟩
  · have hidx : AqrIdx x y z w ⟨ix, iy, iz, iw⟩ := ⟨hx, hy, hz, hw⟩
    exact execAqr_eq_next.2 ⟨hf, .inl ⟨_, hidx, .inr ⟨allValid_eq_false.2 hv, rfl⟩⟩⟩
  · exact execGet_eq_next.2 ⟨hf, .inl ⟨n, hn, .inr ⟨hv, rfl⟩⟩⟩
  · obtain ⟨hf, ⟨n, -, rfl⟩ | ⟨-, rfl⟩⟩ := execSet_eq_next.1 h
    · simp [hf] at ht
    · simp [Cause.code]

/-! ### The document's domain -/

/-- On a constructed state every index in range names a readable word. -/
theorem readable_of_constructed {s : State} {f : IdxField} (hs : s.constructed) (hf : f.inRange = true) :
    readable s.V f = true := by
  obtain ⟨n, hn⟩ := exists_wordIdx_of_inRange hf
  rw [readable_eq_valid hn, constructed_iff.1 hs n]

/-- A command with its indices in range reads only indices in range (R100). -/
theorem inRange_of_reads {i : Instr} {f : IdxField} (hi : i.wellFormed = true) (hf : f ∈ i.reads) :
    f.inRange = true := by
  cases i with
  | qr => cases hf
  | aqr x y z w =>
    simp only [Instr.wellFormed, Bool.and_eq_true, and_assoc] at hi
    obtain ⟨hx, hy, hz, hw⟩ := hi
    simp only [Instr.reads, List.mem_cons, List.not_mem_nil, or_false] at hf
    rcases hf with rfl | rfl | rfl | rfl <;> assumption
  | get n =>
    cases List.mem_singleton.1 hf
    exact hi
  | set n => cases hf

/-- No command makes a constructed state less. -/
theorem exec_keeps_constructed {i : Instr} {s t : State} (h : exec i s = .next t) (hs : s.constructed) :
    t.constructed :=
  constructed_iff.2 fun j => exec_keeps_valid h (constructed_iff.1 hs j)

/-- Settles O18: on a constructed state the valid check never fails, so the command ends Done. -/
theorem wellTypedCommandsAlwaysEndDone : Obligations.WellTypedCommandsAlwaysEndDone := by
  intro i s hi hs hf
  obtain ⟨done, hdone, hexec⟩ := exec_of_wellFormed hf hi
  have hreads : i.reads.all (readable s.V) = true :=
    List.all_eq_true.2 fun f hmem => readable_of_constructed hs (inRange_of_reads hi hmem)
  rw [if_pos hreads] at hexec
  obtain ⟨-, hr⟩ | ⟨hfatal, -⟩ := exec_responses hexec
  · exact ⟨done, _, hexec, hdone, (exec_keeps_constructed hexec hs).trans hs.symm, hr⟩
  · simp [hdone] at hfatal

/-! ### Repetition -/

/-- Settles O42: the second GET reads the same word, and the second SET writes what stands there. -/
theorem repeatingGetOrSetChangesNothing : Obligations.RepeatingGetOrSetChangesNothing := by
  refine ⟨fun i s t h ht => ?_, fun i s t h ht => ?_⟩
  · obtain ⟨hf, ⟨n, hn, ⟨hv, rfl⟩ | ⟨-, rfl⟩⟩ | ⟨-, rfl⟩⟩ := execGet_eq_next.1 h
    · refine ⟨⟨rfl, rfl, rfl, rfl, rfl⟩, _, _, rfl, execGet_eq_next.2 ⟨hf, .inl ⟨n, hn, .inl ⟨hv, rfl⟩⟩⟩, ?_, rfl⟩
      exact ⟨rfl, rfl, rfl, rfl, rfl⟩
    · simp at ht
    · simp at ht
  · obtain ⟨hf, ⟨n, hn, rfl⟩ | ⟨-, rfl⟩⟩ := execSet_eq_next.1 h
    · refine ⟨_, execSet_eq_next.2 ⟨hf, .inl ⟨n, hn, rfl⟩⟩, ?_, ?_, rfl, rfl, rfl⟩
      · simp
      · simp [BitVec.or_assoc]
    · simp at ht

/-! ### The order of the write-back -/

theorem IdxQuad.at_injective {ix : IdxQuad} (h : [ix.x, ix.y, ix.z, ix.w].Nodup) : Function.Injective ix.at := by
  have hmem : ∀ p : Slot, p ∈ [Slot.x, .y, .z, .w] := by
    intro p
    cases p <;> decide
  have hmap : ([Slot.x, .y, .z, .w].map ix.at).Nodup := h
  exact fun p q hpq => List.inj_on_of_nodup_map hmap (hmem p) (hmem q) hpq

theorem State.writeWord_comm {s : State} {i j : WordIdx} (h : i ≠ j) (v u : Word) :
    (s.writeWord i v).writeWord j u = (s.writeWord j u).writeWord i v := by
  simp only [State.writeWord]
  rw [Vector.set_comm v u (Fin.val_ne_of_ne h)]

/-- Settles O44: writes of different words commute, so any permutation of them leaves the same state. -/
theorem writeOrderMattersOnlyForRepeatedIndices : Obligations.WriteOrderMattersOnlyForRepeatedIndices := by
  intro order ix r s hperm hnodup
  refine hperm.foldl_eq' (fun p _ q _ t => ?_) s
  by_cases hpq : p = q
  · rw [hpq]
  · exact State.writeWord_comm ((IdxQuad.at_injective hnodup).ne hpq) _ _

end Sys2Proof.Machine
end

section
/-! PROOFS. The rules of the whole machine: a step runs the decoded command (spec/30_encoding.md R60), the fault registers
tell the truth (spec/60_exceptions.md R161), the words change only by commands (spec/10_state.md R23, R25), and Reset
(spec/70_reset_and_hazards.md R190). -/

namespace Sys2Proof.Machine

/-! ### A step of each kind -/

/-- An accepted command that decodes is executed with its word and data sampled (R60). -/
theorem step_of_command {s : State} {c : Command} {rest : List HostEvent} {i : Instr} (hf : s.FATAL = false)
    (hp : s.pending = .issue c :: rest) (hd : decode c.word = .command i) : step s = exec i (s.sample c rest) := by
  rw [step_of_accepted hf hp, hd]

/-- Settles O22: the step samples the command and executes what its word decodes to. -/
theorem stepRunsTheDecodedCommand : Obligations.StepRunsTheDecodedCommand :=
  fun _ _ _ _ hf hp hd => step_of_command hf hp hd

/-- Reset is applied in any state (R190). -/
theorem step_of_reset {s : State} {rest : List HostEvent} (hp : s.pending = .reset :: rest) :
    step s = .next (s.takeReset rest) := by
  simp only [step, fetch, hp]

/-- With nothing presented nothing happens (log 6). -/
theorem step_of_idle {s : State} (hp : s.pending = []) : step s = .next s := by
  simp only [step, fetch, hp]

/-- In the fatal state the next Reset is applied past the commands before it (R166; log 5). -/
theorem step_of_reset_behind {s : State} {c : Command} {rest r : List HostEvent} (hf : s.FATAL = true)
    (hp : s.pending = .issue c :: rest) (hr : afterReset rest = some r) : step s = .next (s.takeReset r) := by
  simp only [step, fetch, hp, hf, hr, if_true]

theorem step_of_reset_past_commands {s : State} {cs : List Command} {rest : List HostEvent} (hf : s.FATAL = true)
    (hp : s.pending = issueAll cs ++ .reset :: rest) : step s = .next (s.takeReset rest) := by
  cases cs with
  | nil => exact step_of_reset hp
  | cons c cs => exact step_of_reset_behind hf hp (afterReset_issueAll_append cs rest)

/-- Settles O30: the step is the Reset event. -/
theorem resetIsNotHeldUpByUntakenCommands : Obligations.ResetIsNotHeldUpByUntakenCommands :=
  fun _ _ _ hf hp => ⟨_, step_of_reset_past_commands hf hp, rfl, rfl, rfl, rfl, rfl, rfl⟩

/-- A step from the fatal state does nothing, or is a Reset that the host applied (R165, R167). -/
theorem step_from_fatal {s t : State} (hf : s.FATAL = true) (h : step s = .next t) :
    t = s ∨ ∃ rest, .reset :: rest <:+ s.pending ∧ t = s.takeReset rest := by
  obtain ⟨-, ht⟩ | hreset | ⟨c, rest, hf', -⟩ := step_eq_next h
  · exact .inl ht
  · exact .inr hreset
  · simp [hf] at hf'

/-- Settles O31: in the fatal state the step is idle or a Reset, whose fields are read off. -/
theorem onlyResetLeavesTheFatalState : Obligations.OnlyResetLeavesTheFatalState := by
  intro s t hf h
  refine (step_from_fatal hf h).imp_right ?_
  rintro ⟨rest, hsuffix, rfl⟩
  exact ⟨hsuffix.subset List.mem_cons_self, rfl, rfl, rfl, rfl, rfl⟩

/-! ### Reset -/

/-- A command that reads an unwritten word, or has an index out of range, raises a fault (R25). -/
theorem exec_reading_unwritten {i : Instr} {s : State} {f : IdxField} (hf : s.FATAL = false) (hmem : f ∈ i.reads)
    (hread : readable s.V f = false) : ∃ c, exec i s = .next (s.raiseFatal c) := by
  cases hi : i.wellFormed with
  | false => exact ⟨_, (exec_eq_indexRange hf).2 hi⟩
  | true =>
    obtain ⟨done, -, hexec⟩ := exec_of_wellFormed hf hi
    have hreads : ¬ i.reads.all (readable s.V) = true := by
      intro hall
      simp [List.all_eq_true.1 hall f hmem] at hread
    exact ⟨_, by rw [hexec, if_neg hreads]⟩

/-- Settles O32: with every valid bit 0, no command that reads a word can end Done. -/
theorem resetEventClearsAndHides : Obligations.ResetEventClearsAndHides := by
  intro s rest hp
  have hunreadable : ∀ f, readable (s.takeReset rest).V f = false := fun f => BitVec.getLsbD_zero
  refine ⟨_, step_of_reset hp, rfl, rfl, rfl, rfl, rfl, rfl, rfl, fun i => ?_, fun x y z w => ?_⟩
  · obtain ⟨c, hc⟩ := exec_reading_unwritten (i := .get i) rfl List.mem_cons_self (hunreadable i)
    exact ⟨_, hc, rfl, rfl⟩
  · obtain ⟨c, hc⟩ := exec_reading_unwritten (i := .aqr x y z w) rfl List.mem_cons_self (hunreadable x)
    exact ⟨_, hc, rfl, rfl⟩

/-- Settles O33: the values are those that the definition of the reset state writes out. -/
theorem resetStateHasTheSpecifiedValues : Obligations.ResetStateHasTheSpecifiedValues := by
  unfold Obligations.ResetStateHasTheSpecifiedValues
  decide

/-! ### The fault registers tell the truth -/

/-- A step that ends outside the fatal state leaves the fault registers as they were, or is a Reset, which clears them. -/
theorem step_faultRegisters_of_not_fatal {s t : State} (h : step s = .next t) (ht : t.FATAL = false) :
    (s.FATAL = false ∧ t.CAUSE = s.CAUSE ∧ t.FINFO = s.FINFO) ∨ (t.CAUSE = 0#4 ∧ t.FINFO = 0#40) := by
  obtain ⟨-, rfl⟩ | ⟨rest, -, rfl⟩ | ⟨c, rest, hf, -, ⟨-, rfl⟩ | ⟨-, rfl⟩ | ⟨i, -, hexec⟩⟩ := step_eq_next h
  · exact .inl ⟨ht, rfl, rfl⟩
  · exact .inr ⟨rfl, rfl⟩
  · simp at ht
  · simp at ht
  · obtain ⟨-, hregs⟩ | ⟨e, rfl⟩ := exec_faultRegisters hexec
    · exact .inl ⟨hf, hregs⟩
    · simp at ht

/-- A step that ends in the fatal state is fatal entry with the fault of the command presented, or began there and did
nothing. -/
theorem step_faultRegisters_of_fatal {s t : State} (h : step s = .next t) (ht : t.FATAL = true) :
    t = s ∨ ∃ e, t.CAUSE = Cause.code e ∧ faultOf t.V t.FINFO = some e := by
  cases hf : s.FATAL with
  | true =>
    refine (step_from_fatal hf h).imp_right ?_
    rintro ⟨rest, -, rfl⟩
    simp at ht
  | false =>
    obtain ⟨c, rest, e, -, he, rfl⟩ := step_into_fatal h hf ht
    exact .inr ⟨e, rfl, he⟩

/-- Settles O34: outside the fatal state the registers are kept or cleared, and in it they are those of fatal entry, whose
valid bits are the ones that the fault was found with. -/
theorem stepKeepsTheFaultRegistersTruthful : Obligations.StepKeepsTheFaultRegistersTruthful := by
  rintro s t ⟨hclear, hfatal⟩ h
  refine ⟨fun ht => ?_, fun ht => ?_⟩
  · obtain ⟨hf, hcause, hfinfo⟩ | hzero := step_faultRegisters_of_not_fatal h ht
    · rw [hcause, hfinfo]
      exact hclear hf
    · exact hzero
  · obtain rfl | hentry := step_faultRegisters_of_fatal h ht
    · exact hfatal ht
    · exact hentry

/-- Settles O35: the reset state is not fatal, and its registers are 0. -/
theorem resetStateHasTruthfulFaultRegisters : Obligations.ResetStateHasTruthfulFaultRegisters :=
  Tests.reset_inv

/-! ### The words and the valid bits -/

/-- A step that is no Reset leaves the words and the valid bits, or executes a command that the host presented. -/
theorem step_of_no_reset {s t : State} (h : step s = .next t) (hr : t.resets = s.resets) :
    (t.S = s.S ∧ t.V = s.V) ∨
    ∃ c rest i, s.pending = .issue c :: rest ∧ decode c.word = .command i ∧ exec i (s.sample c rest) = .next t := by
  obtain ⟨-, rfl⟩ | ⟨rest, -, rfl⟩ | ⟨c, rest, -, hp, ⟨-, rfl⟩ | ⟨-, rfl⟩ | ⟨i, hd, hexec⟩⟩ := step_eq_next h
  · exact .inl ⟨rfl, rfl⟩
  · simp at hr
  · exact .inl ⟨rfl, rfl⟩
  · exact .inl ⟨rfl, rfl⟩
  · exact .inr ⟨c, rest, i, hp, hd, hexec⟩

/-- A command that writes a word is a SET or an AQR that names it (R23). -/
theorem writes_cases {i : Instr} {j : WordIdx} (h : idxField j ∈ i.writes) :
    i = .set (idxField j) ∨ ∃ x y z w, i = .aqr x y z w ∧
      (x.toNat = j.1 ∨ y.toNat = j.1 ∨ z.toNat = j.1 ∨ w.toNat = j.1) := by
  cases i with
  | qr => cases h
  | aqr x y z w =>
    refine .inr ⟨x, y, z, w, rfl, ?_⟩
    simp only [Instr.writes, List.mem_cons, List.not_mem_nil, or_false] at h
    rcases h with rfl | rfl | rfl | rfl <;> simp [toNat_idxField]
  | get f => cases h
  | set f =>
    rw [List.mem_singleton.1 h]
    exact .inl rfl

/-- Settles O36: only a command changes words and valid bits, and it says which. -/
theorem wordsChangeOnlyByCommandsThatNameThem : Obligations.WordsChangeOnlyByCommandsThatNameThem := by
  intro s t j h hr
  obtain ⟨hS, hV⟩ | ⟨c, rest, i, hp, hd, hexec⟩ := step_of_no_reset h hr
  · have hvalid : t.valid j = s.valid j := by rw [State.valid, hV, State.valid]
    have hword : t.word j = s.word j := by simp only [State.word, hS]
    refine ⟨fun hv => hvalid.trans hv, fun hv hv' => ?_, fun hne => absurd hword hne⟩
    rw [hvalid, hv] at hv'
    cases hv'
  · refine ⟨exec_keeps_valid (s := s.sample c rest) hexec, fun hv hv' => ?_, fun hne => ?_⟩
    · obtain hsame | ⟨rfl, -⟩ := exec_valid hexec j
      · rw [hsame, State.valid_sample, hv] at hv'
        cases hv'
      · exact ⟨c, rest, hp, hd⟩
    · have hmem : idxField j ∈ i.writes := by
        by_contra hnot
        exact hne (exec_word_of_not_written (s := s.sample c rest) hexec hnot)
      refine ⟨c, rest, hp, (writes_cases hmem).imp ?_ ?_⟩
      · rintro rfl
        exact hd
      · rintro ⟨x, y, z, w, rfl, hnames⟩
        exact ⟨x, y, z, w, hd, hnames⟩

/-! ### No hidden state -/

/-- The state with another history: what the host is still to do, what was responded, how many Reset events there were. -/
def State.withHistory (s : State) (p : List HostEvent) (rs : List BusData) (k : Nat) : State :=
  { s with pending := p, responses := rs, resets := k }

/-- A command answers the same whatever the history, and adds at most one response to it (R34). -/
theorem exec_withHistory {i : Instr} {s t : State} (h : exec i s = .next t) :
    ∃ rd, rd.length ≤ 1 ∧ t.responses = s.responses ++ rd ∧
      ∀ p rs k, exec i (s.withHistory p rs k) = .next (t.withHistory p (rs ++ rd) k) := by
  have fatal : ∀ c, (∀ p rs k, exec i (s.withHistory p rs k) = .next ((s.withHistory p rs k).raiseFatal c)) →
      t = s.raiseFatal c → ∃ rd, rd.length ≤ 1 ∧ t.responses = s.responses ++ rd ∧
        ∀ p rs k, exec i (s.withHistory p rs k) = .next (t.withHistory p (rs ++ rd) k) := by
    rintro c hc rfl
    refine ⟨[], by simp, by simp, fun p rs k => ?_⟩
    rw [hc, List.append_nil]
    rfl
  cases i with
  | qr =>
    obtain ⟨hf, rfl⟩ := execQr_eq_next.1 h
    exact ⟨_, le_rfl, rfl, fun p rs k => execQr_eq_next.2 ⟨hf, rfl⟩⟩
  | aqr x y z w =>
    obtain ⟨hf, ⟨ix, hix, ⟨hv, rfl⟩ | ⟨hv, ht⟩⟩ | ⟨hr, ht⟩⟩ := execAqr_eq_next.1 h
    · exact ⟨_, le_rfl, rfl, fun p rs k => execAqr_eq_next.2 ⟨hf, .inl ⟨ix, hix, .inl ⟨hv, rfl⟩⟩⟩⟩
    · exact fatal _ (fun p rs k => execAqr_eq_next.2 ⟨hf, .inl ⟨ix, hix, .inr ⟨hv, rfl⟩⟩⟩) ht
    · exact fatal _ (fun p rs k => execAqr_eq_next.2 ⟨hf, .inr ⟨hr, rfl⟩⟩) ht
  | get f =>
    obtain ⟨hf, ⟨n, hn, ⟨hv, rfl⟩ | ⟨hv, ht⟩⟩ | ⟨hr, ht⟩⟩ := execGet_eq_next.1 h
    · exact ⟨_, le_rfl, rfl, fun p rs k => execGet_eq_next.2 ⟨hf, .inl ⟨n, hn, .inl ⟨hv, rfl⟩⟩⟩⟩
    · exact fatal _ (fun p rs k => execGet_eq_next.2 ⟨hf, .inl ⟨n, hn, .inr ⟨hv, rfl⟩⟩⟩) ht
    · exact fatal _ (fun p rs k => execGet_eq_next.2 ⟨hf, .inr ⟨hr, rfl⟩⟩) ht
  | set f =>
    obtain ⟨hf, ⟨n, hn, rfl⟩ | ⟨hr, ht⟩⟩ := execSet_eq_next.1 h
    · exact ⟨_, le_rfl, rfl, fun p rs k => execSet_eq_next.2 ⟨hf, .inl ⟨n, hn, rfl⟩⟩⟩
    · exact fatal _ (fun p rs k => execSet_eq_next.2 ⟨hf, .inr ⟨hr, rfl⟩⟩) ht

/-- A command outside the fatal state answers a next state. -/
theorem exists_exec_eq_next (i : Instr) {s : State} (hf : s.FATAL = false) : ∃ t, exec i s = .next t := by
  cases hi : i.wellFormed with
  | false => exact ⟨_, (exec_eq_indexRange hf).2 hi⟩
  | true =>
    obtain ⟨_, -, hexec⟩ := exec_of_wellFormed hf hi
    exact ⟨_, hexec⟩

/-- Two states with the same architectural state that sample the same command differ in their history only. -/
theorem sample_eq_withHistory {s₁ s₂ : State} (h : s₁.sameArch s₂) (c : Command) (r₁ r₂ : List HostEvent) :
    s₂.sample c r₂ = (s₁.sample c r₁).withHistory r₂ s₂.responses s₂.resets := by
  obtain ⟨hS, hV, hF, hC, hI⟩ := h
  simp only [State.sample, State.withHistory, hS, hV, hF, hC, hI]

/-- Settles O37: after sampling, the two states are one state with two histories. -/
theorem noHiddenState : Obligations.NoHiddenState := by
  intro s₁ s₂ c r₁ r₂ harch hf₁ hp₁ hp₂
  have hf₂ : s₂.FATAL = false := harch.2.2.1 ▸ hf₁
  have hsample := sample_eq_withHistory harch c r₁ r₂
  cases hd : decode c.word with
  | illegalForm =>
    refine ⟨_, _, [], step_of_illegalForm hf₁ hp₁ hd, step_of_illegalForm hf₂ hp₂ hd, ?_, by simp, by simp, by simp⟩
    rw [hsample]
    exact ⟨rfl, rfl, rfl, rfl, rfl⟩
  | illegalOpcode =>
    refine ⟨_, _, [], step_of_illegalOpcode hf₁ hp₁ hd, step_of_illegalOpcode hf₂ hp₂ hd, ?_, by simp, by simp, by simp⟩
    rw [hsample]
    exact ⟨rfl, rfl, rfl, rfl, rfl⟩
  | command i =>
    obtain ⟨t, ht⟩ := exists_exec_eq_next i (s := s₁.sample c r₁) hf₁
    obtain ⟨rd, hlen, hrd, hexec⟩ := exec_withHistory ht
    refine ⟨t, t.withHistory r₂ (s₂.responses ++ rd) s₂.resets, rd, (step_of_command hf₁ hp₁ hd).trans ht, ?_,
      ⟨rfl, rfl, rfl, rfl, rfl⟩, hrd, rfl, hlen⟩
    rw [step_of_command hf₂ hp₂ hd, hsample]
    exact hexec r₂ s₂.responses s₂.resets

end Sys2Proof.Machine
end

section
/-! PROOFS. Noninterference: the unwritten words of `S` reach no response and no output (spec/10_state.md R36). Every
operation of the model keeps two alike states alike, so every command, every step and every run does. -/

namespace Sys2Proof.Machine

/-! ### The operations over the state -/

theorem State.Alike.valid {s t : State} (h : s.Alike t) (i : WordIdx) : s.valid i = t.valid i := by
  rw [State.valid, h.V, State.valid]

theorem State.Alike.respond {s t : State} (h : s.Alike t) (rd : BusData) : (s.respond rd).Alike (t.respond rd) :=
  { h with responses := congrArg (· ++ [rd]) h.responses }

theorem State.Alike.raiseFatal {s t : State} (h : s.Alike t) (c : Cause) : (s.raiseFatal c).Alike (t.raiseFatal c) :=
  { h with FATAL := rfl, CAUSE := rfl, FINFO := h.CW }

theorem State.Alike.sample {s t : State} (h : s.Alike t) (c : Command) (rest : List HostEvent) :
    (s.sample c rest).Alike (t.sample c rest) :=
  { h with CW := rfl, CD := rfl, pending := rfl }

/-- Reset leaves no word written, and the free words it leaves are numbered by the same counter (R36). -/
theorem State.Alike.takeReset {s t : State} (h : s.Alike t) (rest : List HostEvent) :
    (s.takeReset rest).Alike (t.takeReset rest) where
  words i hi := absurd hi (by simp [State.valid])
  V := rfl
  FATAL := rfl
  CAUSE := rfl
  FINFO := rfl
  CW := h.CW
  CD := h.CD
  pending := rfl
  responses := h.responses
  resets := congrArg (· + 1) h.resets

theorem State.Alike.writeWord {s t : State} (h : s.Alike t) (i : WordIdx) (v : Word) :
    (s.writeWord i v).Alike (t.writeWord i v) :=
  { h with
    words := fun j hj => by
      rw [State.word_writeWord, State.word_writeWord]
      split
      · rfl
      · exact h.words j hj }

/-- A valid bit may be set where the two states hold the same word. -/
theorem State.Alike.setValid {s t : State} {i : WordIdx} (h : s.Alike t) (hi : s.word i = t.word i) :
    (s.setValid i).Alike (t.setValid i) :=
  { h with
    words := fun j hj => by
      by_cases hji : j = i
      · rw [hji]
        exact hi
      · exact h.words j (by simpa [State.valid_setValid, hji] using hj)
    V := congrArg (· ||| BitVec.twoPow 16 i.1) h.V }

theorem State.Alike.writeBack {s t : State} (h : s.Alike t) (order : List Slot) (ix : IdxQuad) (r : Quad) :
    (writeBack order ix r s).Alike (writeBack order ix r t) := by
  induction order generalizing s t with
  | nil => exact h
  | cons p ps ih => exact ih (h.writeWord (ix.at p) (r.at p))

/-! ### The checks of R100 -/

theorem whenAccepting_alike {s t : State} {k k' : Answer} (h : s.Alike t) (hk : Answer.Alike k k') :
    Answer.Alike (whenAccepting s k) (whenAccepting t k') := by
  unfold whenAccepting
  rw [← h.FATAL]
  split
  · exact rfl
  · exact hk

theorem withIndex_alike {s t : State} {f : IdxField} {k k' : WordIdx → Answer} (h : s.Alike t)
    (hk : ∀ i, Answer.Alike (k i) (k' i)) : Answer.Alike (withIndex s f k) (withIndex t f k') := by
  unfold withIndex
  cases wordIdx f with
  | none => exact h.raiseFatal _
  | some i => exact hk i

/-- What passes the valid check is a word that the two states agree on. -/
theorem withWord_alike {s t : State} {i : WordIdx} {k k' : Word → Answer} (h : s.Alike t)
    (hk : ∀ v, Answer.Alike (k v) (k' v)) : Answer.Alike (withWord s i k) (withWord t i k') := by
  cases hv : s.valid i with
  | true =>
    rw [withWord_of_valid hv, withWord_of_valid ((h.valid i).symm.trans hv), h.words i hv]
    exact hk _
  | false =>
    rw [withWord_of_invalid hv, withWord_of_invalid ((h.valid i).symm.trans hv)]
    exact h.raiseFatal _

/-! ### Commands, steps and runs -/

theorem exec_alike (i : Instr) {s t : State} (h : s.Alike t) : Answer.Alike (exec i s) (exec i t) := by
  cases i with
  | qr =>
    refine whenAccepting_alike h ?_
    rw [h.CD]
    exact h.respond _
  | aqr x y z w =>
    exact whenAccepting_alike h <| withIndex_alike h fun _ => withIndex_alike h fun _ => withIndex_alike h fun _ =>
      withIndex_alike h fun _ => withWord_alike h fun _ => withWord_alike h fun _ => withWord_alike h fun _ =>
      withWord_alike h fun _ => (h.writeBack _ _ _).respond _
  | get f => exact whenAccepting_alike h <| withIndex_alike h fun _ => withWord_alike h fun _ => h.respond _
  | set f =>
    refine whenAccepting_alike h <| withIndex_alike h fun n => ?_
    rw [h.CD]
    exact ((h.writeWord n _).setValid (by simp [State.word_writeWord])).respond _

theorem step_alike {s t : State} (h : s.Alike t) : Answer.Alike (step s) (step t) := by
  cases hp : s.pending with
  | nil =>
    rw [step_of_idle hp, step_of_idle (h.pending.symm.trans hp)]
    exact h
  | cons e rest =>
    have hp' := h.pending.symm.trans hp
    cases e with
    | reset =>
      rw [step_of_reset hp, step_of_reset hp']
      exact h.takeReset rest
    | issue c =>
      cases hf : s.FATAL with
      | true =>
        have hf' := h.FATAL.symm.trans hf
        cases hr : afterReset rest with
        | none =>
          rw [step_of_stuck hf hp hr, step_of_stuck hf' hp' hr]
          exact rfl
        | some r =>
          rw [step_of_reset_behind hf hp hr, step_of_reset_behind hf' hp' hr]
          exact h.takeReset r
      | false =>
        have hf' := h.FATAL.symm.trans hf
        cases hd : decode c.word with
        | command i =>
          rw [step_of_command hf hp hd, step_of_command hf' hp' hd]
          exact exec_alike i (h.sample c rest)
        | illegalForm =>
          rw [step_of_illegalForm hf hp hd, step_of_illegalForm hf' hp' hd]
          exact (h.sample c rest).raiseFatal _
        | illegalOpcode =>
          rw [step_of_illegalOpcode hf hp hd, step_of_illegalOpcode hf' hp' hd]
          exact (h.sample c rest).raiseFatal _

/-- Alike answers are alike next states, or the same stop. -/
theorem Answer.Alike.cases {a b : Answer} (h : Answer.Alike a b) :
    (∃ s t, a = .next s ∧ b = .next t ∧ s.Alike t) ∨ (∃ r, a = .fault r ∧ b = .fault r) ∨
      ∃ r, a = .refused r ∧ b = .refused r := by
  cases a with
  | next s => cases b with
    | next t => exact .inl ⟨s, t, rfl, rfl, h⟩
    | fault r => cases h
    | refused r => cases h
  | fault r => cases b with
    | next t => cases h
    | fault r' => cases h; exact .inr (.inl ⟨r, rfl, rfl⟩)
    | refused r' => cases h
  | refused r => cases b with
    | next t => cases h
    | fault r' => cases h
    | refused r' => cases h; exact .inr (.inr ⟨r, rfl, rfl⟩)

/-- Settles O38, by induction on the length of the run: a step keeps the two states alike. -/
theorem unwrittenWordsAreNeverObserved : Obligations.UnwrittenWordsAreNeverObserved := by
  intro n
  induction n with
  | zero => exact fun s t h => h
  | succ n ih =>
    intro s t h
    rw [run_succ, run_succ]
    obtain ⟨s', t', hs, ht, h'⟩ | ⟨r, hs, ht⟩ | ⟨r, hs, ht⟩ := (step_alike h).cases
    · rw [hs, ht]
      exact ih s' t' h'
    · rw [hs, ht]
      exact rfl
    · rw [hs, ht]
      exact rfl

end Sys2Proof.Machine
end

section
/-! PROOFS. Runs of a list of commands: every list finishes (spec/70_reset_and_hazards.md R205), and a GET delivers the latest
write (spec/20_memory.md R48). -/

namespace Sys2Proof.Machine

/-! ### A list of commands, taken one by one -/

/-- An accepted command is taken off the host's list, and ends Done with one response or Fatal with none (R60, R66). -/
theorem step_accept {s : State} {c : Command} {rest : List HostEvent} (hf : s.FATAL = false)
    (hp : s.pending = .issue c :: rest) :
    ∃ t, step s = .next t ∧ t.pending = rest ∧
      ((t.FATAL = false ∧ ∃ rd, t.responses = s.responses ++ [rd]) ∨ (t.FATAL = true ∧ t.responses = s.responses)) := by
  cases hd : decode c.word with
  | illegalForm => exact ⟨_, step_of_illegalForm hf hp hd, rfl, .inr ⟨rfl, rfl⟩⟩
  | illegalOpcode => exact ⟨_, step_of_illegalOpcode hf hp hd, rfl, .inr ⟨rfl, rfl⟩⟩
  | command i =>
    obtain ⟨t, ht⟩ := exists_exec_eq_next i (s := s.sample c rest) hf
    obtain ⟨-, -, hpending, -⟩ := exec_keeps_record ht
    exact ⟨t, (step_of_command hf hp hd).trans ht, hpending, (exec_responses ht).imp_left fun ⟨hF, hr⟩ => ⟨hF, _, hr⟩⟩

/-- Settles O43, by induction on the list: a command that ends Done leaves the rest of the list, and one that ends Fatal is
the last. -/
theorem everyCommandListFinishes : Obligations.EveryCommandListFinishes := by
  intro cs
  induction cs with
  | nil => exact fun s hf hp => .inl ⟨s, [], run_zero s, hf, hp, (List.append_nil _).symm, rfl⟩
  | cons c cs ih =>
    intro s hf hp
    obtain ⟨u, hu, hpu, ⟨hF, rd, hr⟩ | ⟨hF, hr⟩⟩ := step_accept hf hp
    · obtain ⟨t, rs, hrun, ht, hpt, hrs, hlen⟩ | ⟨k, t, rs, hk, hrun, ht, hpt, hrs, hlen, hstuck⟩ := ih u hF hpu
      · refine .inl ⟨t, rd :: rs, (run_succ_of_next hu).trans hrun, ht, hpt, ?_, congrArg (· + 1) hlen⟩
        rw [hrs, hr, List.append_assoc, List.singleton_append]
      · refine .inr ⟨k + 1, t, rd :: rs, Nat.succ_lt_succ hk, (run_succ_of_next hu).trans hrun, ht, hpt, ?_,
          congrArg (· + 1) hlen, fun h => hstuck (Nat.lt_of_succ_lt_succ h)⟩
        rw [hrs, hr, List.append_assoc, List.singleton_append]
    · refine .inr ⟨0, u, [], Nat.succ_pos _, run_succ_of_next hu, hF, hpu, ?_, rfl, fun h => ?_⟩
      · rw [hr, List.append_nil]
      · have hne : cs ≠ [] := List.ne_nil_of_length_pos (Nat.lt_of_succ_lt_succ h)
        exact noCommandIsAcceptedInTheFatalState.2.2 u cs hF hne hpu

/-- A host that presents commands only stays with a fatal engine (R166). -/
theorem run_keeps_fatal {n : Nat} {s t : State} {cs : List Command} (hf : s.FATAL = true) (hp : s.pending = issueAll cs)
    (h : run n s = .next t) : t.FATAL = true := by
  induction n with
  | zero =>
    cases h
    exact hf
  | succ n ih =>
    cases cs with
    | nil =>
      rw [run_succ_of_next (step_of_idle hp)] at h
      exact ih h
    | cons c cs =>
      rw [run_succ, step_of_stuck hf hp (afterReset_issueAll cs)] at h
      cases h

/-- In a run over a list of commands that does not end in the fatal state, the first command decodes and ends Done. -/
theorem run_issueAll_cons {n : Nat} {s t : State} {c : Command} {cs : List Command} (hf : s.FATAL = false)
    (hp : s.pending = issueAll (c :: cs)) (h : run (n + 1) s = .next t) (ht : t.FATAL = false) :
    ∃ i u, decode c.word = .command i ∧ exec i (s.sample c (issueAll cs)) = .next u ∧ u.FATAL = false ∧
      u.pending = issueAll cs ∧ run n u = .next t := by
  obtain ⟨u, hu, hpu, hout⟩ := step_accept hf hp
  rw [run_succ_of_next hu] at h
  have hF : u.FATAL = false := by
    by_contra hne
    have hfatal := run_keeps_fatal (Bool.not_eq_false _ ▸ hne) hpu h
    simp [ht] at hfatal
  obtain ⟨i, hd, -⟩ | ⟨hfatal, -⟩ := step_responses hf hp hu
  · exact ⟨i, u, hd, (step_of_command hf hp hd).symm.trans hu, hF, hpu, h⟩
  · simp [hF] at hfatal

/-! ### The latest write -/

/-- After commands that do not write the word, a GET that ends Done responds the word (R48). -/
theorem run_get_responds {cs : List Command} {s t : State} {i : WordIdx} (hf : s.FATAL = false)
    (hp : s.pending = issueAll (cs ++ [getCommand i]))
    (hcs : ∀ c ∈ cs, ∀ ins, decode c.word = .command ins → idxField i ∉ ins.writes)
    (h : run (cs.length + 1) s = .next t) (ht : t.FATAL = false) :
    ∃ rs, t.responses = rs ++ [busOfWord (s.word i)] := by
  induction cs generalizing s with
  | nil =>
    obtain ⟨ins, u, hd, hexec, hF, -, hrun⟩ := run_issueAll_cons hf hp h ht
    rw [getCommand, decode_encode] at hd
    cases hd
    cases hrun
    obtain ⟨-, hr⟩ | ⟨hfatal, -⟩ := exec_responses hexec
    · rw [doneResponse_get (toNat_idxField i)] at hr
      exact ⟨_, hr⟩
    · simp [hF] at hfatal
  | cons c cs ih =>
    obtain ⟨ins, u, hd, hexec, hF, hpu, hrun⟩ := run_issueAll_cons hf hp h ht
    have hword : u.word i = (s.sample c _).word i := exec_word_of_not_written hexec (hcs c List.mem_cons_self ins hd)
    rw [State.word_sample] at hword
    rw [← hword]
    exact ih hF hpu (fun c' hc' => hcs c' (List.mem_cons_of_mem _ hc')) hrun

/-- The index fields of a quadruple name its words. -/
theorem aqrIdx_idxField (q : IdxQuad) : AqrIdx (idxField q.x) (idxField q.y) (idxField q.z) (idxField q.w) q :=
  ⟨toNat_idxField _, toNat_idxField _, toNat_idxField _, toNat_idxField _⟩

/-- An AQR of known indices that ends Done found their words written and left their write-back. -/
theorem execAqr_done_of_idx {x y z w : IdxField} {q : IdxQuad} {s t : State} (hq : AqrIdx x y z w q)
    (h : execAqr x y z w s = .next t) (ht : t.FATAL = false) :
    s.allValid q = true ∧ t = (writeBack Config.overlapWriteOrder q (qr (s.quad q)) s).respond 0#128 := by
  rw [execAqr_of_idx hq (execAqr_eq_next.1 h).1] at h
  split at h
  case isTrue hv => exact ⟨hv, next_eq_next.1 h⟩
  case isFalse hv =>
    cases h
    simp at ht

/-- For a word that one of the four fields names, the choice of the last one that names it has an end (R103). -/
theorem ite_of_named {j x y z w : WordIdx} (h : j ∈ [x, y, z, w]) (a b c d v : Word) :
    (if j = w then d else if j = z then c else if j = y then b else if j = x then a else v)
      = if j = w then d else if j = z then c else if j = y then b else a := by
  simp only [List.mem_cons, List.not_mem_nil, or_false] at h
  rcases h with rfl | rfl | rfl | rfl <;> simp

/-- Settles O41: after the write the word is `v`, whichever command wrote it, and the rest of the run delivers it. -/
theorem getReturnsTheLatestWrite : Obligations.GetReturnsTheLatestWrite := by
  intro s t i c v cs hf hp hc hcs h ht
  obtain ⟨ins, u, hd, hexec, hF, hpu, hrun⟩ := run_issueAll_cons hf hp h ht
  have hv : u.word i = v := by
    rcases hc with ⟨hset, rfl⟩ | ⟨ix, iy, iz, iw, haqr, hmem, rfl⟩
    · rw [hset] at hd
      cases hd
      obtain ⟨-, ⟨n, hn, rfl⟩ | ⟨-, rfl⟩⟩ := execSet_eq_next.1 hexec
      · have hin : i = n := idxField_injective (eq_idxField_of_toNat hn)
        simp [State.word_writeWord, hin, lane]
      · simp at hF
    · rw [haqr] at hd
      cases hd
      obtain ⟨-, rfl⟩ := execAqr_done_of_idx (aqrIdx_idxField ⟨ix, iy, iz, iw⟩) hexec hF
      rw [State.word_respond, word_writeBack]
      exact ite_of_named hmem _ _ _ _ _
  rw [← hv]
  exact run_get_responds hF hpu hcs hrun ht

end Sys2Proof.Machine
end

section
/-! PROOFS. Quarter-rounds on the words of a state (spec/43_round_schedule.md): each leaves the words that it does not name,
so those with disjoint index sets commute (R129). -/

namespace Sys2Proof.Machine

/-- The four indices of a quadruple. -/
def IdxQuad.indices (q : IdxQuad) : List WordIdx := [q.x, q.y, q.z, q.w]

/-- The words of a quadruple. -/
def quadOf (S : Vector Word 16) (q : IdxQuad) : Quad := ⟨S[q.x.1], S[q.y.1], S[q.z.1], S[q.w.1]⟩

/-- The state after an AQR on the quadruple that ends Done (R101). -/
def State.quarter (s : State) (q : IdxQuad) : State :=
  { s with S := quarterOn q s.S, responses := s.responses ++ [0#128] }

theorem writeBack_eq_quarter (q : IdxQuad) (s : State) :
    (writeBack Config.overlapWriteOrder q (qr (s.quad q)) s).respond 0#128 = s.quarter q := rfl

theorem getElem_quarterOn (q : IdxQuad) (S : Vector Word 16) (j : WordIdx) :
    (quarterOn q S)[j.1] = if j = q.w then (qr (quadOf S q)).d else if j = q.z then (qr (quadOf S q)).c
      else if j = q.y then (qr (quadOf S q)).b else if j = q.x then (qr (quadOf S q)).a else S[j.1] :=
  word_writeBack q (qr (quadOf S q)) { State.reset with S := S } j

/-- A word that the quadruple does not name keeps its value (R104). -/
theorem getElem_quarterOn_of_not_mem {q : IdxQuad} {j : WordIdx} (hj : j ∉ q.indices) (S : Vector Word 16) :
    (quarterOn q S)[j.1] = S[j.1] := by
  simp only [IdxQuad.indices, List.mem_cons, List.not_mem_nil, or_false, not_or] at hj
  obtain ⟨hx, hy, hz, hw⟩ := hj
  rw [getElem_quarterOn, if_neg hw, if_neg hz, if_neg hy, if_neg hx]

/-- A word that the quadruple names depends on the words of the quadruple only. -/
theorem getElem_quarterOn_of_mem {q : IdxQuad} {j : WordIdx} {S S' : Vector Word 16} (hj : j ∈ q.indices)
    (h : quadOf S q = quadOf S' q) : (quarterOn q S)[j.1] = (quarterOn q S')[j.1] := by
  rw [getElem_quarterOn, getElem_quarterOn, ite_of_named hj, ite_of_named hj, h]

theorem quadOf_quarterOn_of_disjoint {p q : IdxQuad} (h : p.indices.Disjoint q.indices) (S : Vector Word 16) :
    quadOf (quarterOn p S) q = quadOf S q := by
  have hkeep : ∀ j ∈ q.indices, (quarterOn p S)[j.1] = S[j.1] :=
    fun j hj => getElem_quarterOn_of_not_mem (fun hj' => h hj' hj) S
  rw [quadOf, hkeep q.x (by simp [IdxQuad.indices]), hkeep q.y (by simp [IdxQuad.indices]),
    hkeep q.z (by simp [IdxQuad.indices]), hkeep q.w (by simp [IdxQuad.indices]), quadOf]

/-- With four distinct indices the words of the quadruple become their quarter-round (R101). -/
theorem quadOf_quarterOn_self {q : IdxQuad} (h : q.indices.Nodup) (S : Vector Word 16) :
    quadOf (quarterOn q S) q = qr (quadOf S q) := by
  simp only [IdxQuad.indices, List.nodup_cons, List.mem_cons, List.not_mem_nil, or_false, not_or] at h
  obtain ⟨⟨hxy, hxz, hxw⟩, ⟨hyz, hyw⟩, hzw, -⟩ := h
  have hx : (quarterOn q S)[q.x.1] = (qr (quadOf S q)).a := by
    rw [getElem_quarterOn, if_neg hxw, if_neg hxz, if_neg hxy, if_pos rfl]
  have hy : (quarterOn q S)[q.y.1] = (qr (quadOf S q)).b := by
    rw [getElem_quarterOn, if_neg hyw, if_neg hyz, if_pos rfl]
  have hz : (quarterOn q S)[q.z.1] = (qr (quadOf S q)).c := by
    rw [getElem_quarterOn, if_neg hzw, if_pos rfl]
  have hw : (quarterOn q S)[q.w.1] = (qr (quadOf S q)).d := by
    rw [getElem_quarterOn, if_pos rfl]
  rw [quadOf, hx, hy, hz, hw]

/-! ### Commuting -/

theorem getElem_quarterOn_comm_of_mem {p q : IdxQuad} {j : WordIdx} (h : p.indices.Disjoint q.indices)
    (hj : j ∈ p.indices) (S : Vector Word 16) :
    (quarterOn p (quarterOn q S))[j.1] = (quarterOn q (quarterOn p S))[j.1] := by
  rw [getElem_quarterOn_of_not_mem (h hj)]
  exact getElem_quarterOn_of_mem hj (quadOf_quarterOn_of_disjoint h.symm S)

theorem quarterOn_comm {p q : IdxQuad} (h : p.indices.Disjoint q.indices) (S : Vector Word 16) :
    quarterOn p (quarterOn q S) = quarterOn q (quarterOn p S) := by
  refine Vector.ext fun k hk => ?_
  by_cases hp : (⟨k, hk⟩ : WordIdx) ∈ p.indices
  · exact getElem_quarterOn_comm_of_mem h hp S
  by_cases hq : (⟨k, hk⟩ : WordIdx) ∈ q.indices
  · exact (getElem_quarterOn_comm_of_mem h.symm hq S).symm
  · calc (quarterOn p (quarterOn q S))[k]
        = (quarterOn q S)[k] := getElem_quarterOn_of_not_mem hp _
      _ = S[k] := getElem_quarterOn_of_not_mem hq _
      _ = (quarterOn p S)[k] := (getElem_quarterOn_of_not_mem hp _).symm
      _ = (quarterOn q (quarterOn p S))[k] := (getElem_quarterOn_of_not_mem hq _).symm

theorem State.quarter_comm {p q : IdxQuad} (h : p.indices.Disjoint q.indices) (s : State) :
    (s.quarter p).quarter q = (s.quarter q).quarter p := by
  simp only [State.quarter, quarterOn_comm h]

/-- The words of disjoint fields have disjoint indices. -/
theorem disjoint_indices {x y z w x' y' z' w' : IdxField} {p q : IdxQuad} (hp : AqrIdx x y z w p)
    (hq : AqrIdx x' y' z' w' q) (h : ∀ f ∈ [x, y, z, w], f ∉ [x', y', z', w']) :
    p.indices.Disjoint q.indices := by
  have fields : ∀ {x y z w : IdxField} {q : IdxQuad}, AqrIdx x y z w q → q.indices.map idxField = [x, y, z, w] := by
    rintro x y z w q ⟨hx, hy, hz, hw⟩
    rw [eq_idxField_of_toNat hx, eq_idxField_of_toNat hy, eq_idxField_of_toNat hz, eq_idxField_of_toNat hw]
    rfl
  rw [← fields hp, ← fields hq] at h
  exact fun j hj hj' => h _ (List.mem_map_of_mem hj) (List.mem_map_of_mem hj')

/-- Settles O45: both commands find the same valid bits in either order, and their quarter-rounds commute. -/
theorem disjointQuarterRoundsCommute : Obligations.DisjointQuarterRoundsCommute := by
  intro s t u x y z w x' y' z' w' hdisj h ht h' hu
  have hf : s.FATAL = false := (execAqr_eq_next.1 h).1
  obtain ⟨p, hp, -⟩ := execAqr_done h ht
  obtain ⟨q, hq, -⟩ := execAqr_done h' hu
  obtain ⟨hvp, rfl⟩ := execAqr_done_of_idx hp h ht
  obtain ⟨hvq, rfl⟩ := execAqr_done_of_idx hq h' hu
  rw [writeBack_eq_quarter] at hvq
  refine ⟨s.quarter q, execAqr_eq_next.2 ⟨hf, .inl ⟨q, hq, .inl ⟨hvq, rfl⟩⟩⟩,
    execAqr_eq_next.2 ⟨hf, .inl ⟨p, hp, .inl ⟨hvp, ?_⟩⟩⟩⟩
  simp only [writeBack_eq_quarter]
  exact State.quarter_comm (disjoint_indices hp hq hdisj) s

/-! ### A list of quarter-rounds -/

theorem quartersOn_eq_foldl (qs : List IdxQuad) (S : Vector Word 16) :
    quartersOn qs S = qs.foldl (fun T q => quarterOn q T) S := by
  induction qs generalizing S with
  | nil => rfl
  | cons q qs ih => exact ih (quarterOn q S)

theorem quartersOn_append (ps qs : List IdxQuad) (S : Vector Word 16) :
    quartersOn (ps ++ qs) S = quartersOn qs (quartersOn ps S) := by
  simp only [quartersOn_eq_foldl, List.foldl_append]

/-- The quadruples of a round: together they name each of the sixteen words exactly once (R120). -/
def CoversOnce (qs : List IdxQuad) : Prop := (qs.flatMap IdxQuad.indices).Perm (List.finRange 16)

theorem CoversOnce.nodup {qs : List IdxQuad} (h : CoversOnce qs) {q : IdxQuad} (hq : q ∈ qs) : q.indices.Nodup :=
  (List.nodup_flatMap.1 (h.nodup_iff.2 (List.nodup_finRange 16))).1 q hq

theorem CoversOnce.pairwise {qs : List IdxQuad} (h : CoversOnce qs) :
    qs.Pairwise fun p q => p.indices.Disjoint q.indices :=
  (List.nodup_flatMap.1 (h.nodup_iff.2 (List.nodup_finRange 16))).2

theorem CoversOnce.exists_mem {qs : List IdxQuad} (h : CoversOnce qs) (j : WordIdx) : ∃ q ∈ qs, j ∈ q.indices :=
  List.mem_flatMap.1 (h.mem_iff.2 (List.mem_finRange j))

/-- The order of quarter-rounds that are disjoint in pairs does not matter (R129). -/
theorem quartersOn_perm {ps qs : List IdxQuad} (h : ps.Perm qs) (hps : CoversOnce ps) (S : Vector Word 16) :
    quartersOn ps S = quartersOn qs S := by
  have : Std.Symm fun p q : IdxQuad => p.indices.Disjoint q.indices := ⟨fun _ _ hpq => hpq.symm⟩
  have hdisj := hps.pairwise.forall
  rw [quartersOn_eq_foldl, quartersOn_eq_foldl]
  refine h.foldl_eq' (fun p hp q hq T => ?_) S
  by_cases hpq : p = q
  · rw [hpq]
  · exact (quarterOn_comm (hdisj hp hq hpq) T).symm

theorem quadOf_quartersOn_of_disjoint {qs : List IdxQuad} {q : IdxQuad}
    (h : ∀ p ∈ qs, p.indices.Disjoint q.indices) (S : Vector Word 16) : quadOf (quartersOn qs S) q = quadOf S q := by
  induction qs generalizing S with
  | nil => rfl
  | cons p qs ih =>
    obtain ⟨hp, hqs⟩ := List.forall_mem_cons.1 h
    exact (ih hqs _).trans (quadOf_quarterOn_of_disjoint hp S)

/-- Among quarter-rounds that are disjoint in pairs, each leaves the quarter-round of the old words of its quadruple. -/
theorem quadOf_quartersOn_of_mem {qs : List IdxQuad} {q : IdxQuad}
    (hdisj : qs.Pairwise fun p q => p.indices.Disjoint q.indices) (hq : q ∈ qs) (hnodup : q.indices.Nodup)
    (S : Vector Word 16) : quadOf (quartersOn qs S) q = qr (quadOf S q) := by
  induction qs generalizing S with
  | nil => cases hq
  | cons p qs ih =>
    obtain ⟨hp, hqs⟩ := List.pairwise_cons.1 hdisj
    rw [quartersOn]
    rcases List.mem_cons.1 hq with rfl | hq
    · rw [quadOf_quartersOn_of_disjoint fun p' hp' => (hp p' hp').symm, quadOf_quarterOn_self hnodup]
    · rw [ih hqs hq, quadOf_quarterOn_of_disjoint (hp q hq)]

theorem CoversOnce.quadOf_quartersOn {qs : List IdxQuad} (h : CoversOnce qs) {q : IdxQuad} (hq : q ∈ qs)
    (S : Vector Word 16) : quadOf (quartersOn qs S) q = qr (quadOf S q) :=
  quadOf_quartersOn_of_mem h.pairwise hq (h.nodup hq) S

end Sys2Proof.Machine
end

section
/-! PROOFS. The column and diagonal schedule and the pseudo-instructions of the host, run by the machine
(spec/43_round_schedule.md R120 to R129, spec/10_state.md R24). -/

namespace Sys2Proof.Machine

/-! ### The schedule -/

/-- Settles O47: the tables are lists of numbers. -/
theorem scheduleTablesCoverTheMatrix : Obligations.ScheduleTablesCoverTheMatrix := by
  unfold Obligations.ScheduleTablesCoverTheMatrix
  decide

theorem colq_coversOnce : CoversOnce colq := by
  obtain ⟨hcol, -⟩ := scheduleTablesCoverTheMatrix
  exact hcol

theorem diagq_coversOnce : CoversOnce diagq := by
  obtain ⟨-, hdiag, -⟩ := scheduleTablesCoverTheMatrix
  exact hdiag

/-- Column `k` (R121). -/
def column (k : Fin 4) : IdxQuad := ⟨matrixIdx 0 k, matrixIdx 1 k, matrixIdx 2 k, matrixIdx 3 k⟩

/-- The diagonal from column `k` (R121). -/
def diagonal (k : Fin 4) : IdxQuad :=
  ⟨matrixIdx 0 k, matrixIdx 1 (k + 1), matrixIdx 2 (k + 2), matrixIdx 3 (k + 3)⟩

theorem column_mem_colq (k : Fin 4) : column k ∈ colq := by
  obtain ⟨-, -, hcol, -⟩ := scheduleTablesCoverTheMatrix
  exact List.mem_of_getElem? (hcol k)

theorem diagonal_mem_diagq (k : Fin 4) : diagonal k ∈ diagq := by
  obtain ⟨-, -, -, hdiag⟩ := scheduleTablesCoverTheMatrix
  exact List.mem_of_getElem? (hdiag k)

/-! ### Lists of AQR commands -/

theorem issueAll_append (cs ds : List Command) : issueAll (cs ++ ds) = issueAll cs ++ issueAll ds :=
  List.map_append

theorem allValid_of_constructed {s : State} (h : s.constructed) (q : IdxQuad) : s.allValid q = true :=
  allValid_eq_true.2 ⟨constructed_iff.1 h _, constructed_iff.1 h _, constructed_iff.1 h _, constructed_iff.1 h _⟩

/-- The step that accepts the AQR of a quadruple whose words are written. -/
theorem step_aqrCommand {s : State} {q : IdxQuad} {rest : List HostEvent} (hf : s.FATAL = false)
    (hv : s.allValid q = true) (hp : s.pending = .issue (aqrCommand q) :: rest) :
    step s = .next ((s.sample (aqrCommand q) rest).quarter q) := by
  rw [step_of_command hf hp (decode_encode _)]
  exact execAqr_eq_next.2 ⟨hf, .inl ⟨q, aqrIdx_idxField q, .inl ⟨hv, rfl⟩⟩⟩

/-- The step that accepts the AQR of a quadruple with an unwritten word. -/
theorem step_aqrCommand_of_unwritten {s : State} {q : IdxQuad} {rest : List HostEvent} (hf : s.FATAL = false)
    (hv : s.allValid q = false) (hp : s.pending = .issue (aqrCommand q) :: rest) :
    step s = .next ((s.sample (aqrCommand q) rest).raiseFatal .uninitRead) := by
  rw [step_of_command hf hp (decode_encode _)]
  exact execAqr_eq_next.2 ⟨hf, .inl ⟨q, aqrIdx_idxField q, .inr ⟨hv, rfl⟩⟩⟩

/-- AQR commands on written words: each ends Done, and they leave their quarter-rounds one after another. -/
theorem run_aqrCommands {qs : List IdxQuad} {s : State} {rest : List HostEvent} (hf : s.FATAL = false)
    (hv : ∀ q ∈ qs, s.allValid q = true) (hp : s.pending = issueAll (qs.map aqrCommand) ++ rest) :
    ∃ cw cd, run qs.length s = .next { s with
      S := quartersOn qs s.S, CW := cw, CD := cd, pending := rest,
      responses := s.responses ++ List.replicate qs.length 0#128 } := by
  induction qs generalizing s with
  | nil =>
    refine ⟨s.CW, s.CD, (run_zero s).trans ?_⟩
    have hp' : s.pending = rest := hp
    simp [quartersOn, ← hp']
  | cons q qs ih =>
    obtain ⟨hq, hqs⟩ := List.forall_mem_cons.1 hv
    have hstep := step_aqrCommand hf hq hp
    obtain ⟨cw, cd, hrun⟩ := ih (s := (s.sample (aqrCommand q) _).quarter q) hf hqs rfl
    refine ⟨cw, cd, (run_succ_of_next hstep).trans (hrun.trans ?_)⟩
    simp [State.quarter, quartersOn, List.replicate_succ]

/-- The four commands of a round on a constructed state: each quadruple becomes its quarter-round, and nothing else
changes (R123, R124). -/
theorem run_round {qs : List IdxQuad} {s : State} {rest : List HostEvent} (hqs : CoversOnce qs) (hf : s.FATAL = false)
    (hs : s.constructed) (hp : s.pending = issueAll (qs.map aqrCommand) ++ rest) :
    ∃ t, run qs.length s = .next t ∧ t.FATAL = false ∧ t.V = s.V ∧ t.CAUSE = s.CAUSE ∧ t.FINFO = s.FINFO ∧
      t.pending = rest ∧ t.responses = s.responses ++ List.replicate qs.length 0#128 ∧
      ∀ q ∈ qs, t.quad q = qr (s.quad q) := by
  obtain ⟨cw, cd, hrun⟩ := run_aqrCommands hf (fun q _ => allValid_of_constructed hs q) hp
  exact ⟨_, hrun, hf, rfl, rfl, rfl, rfl, rfl, fun q hq => hqs.quadOf_quartersOn hq s.S⟩

/-- Settles O48: the columns are the quadruples of the round. -/
theorem columnRoundMixesEveryColumn : Obligations.ColumnRoundMixesEveryColumn := by
  intro s rest hf hs hp
  obtain ⟨t, hrun, hF, hV, hC, hI, hpt, hr, hquad⟩ := run_round colq_coversOnce hf hs hp
  exact ⟨t, hrun, hF, hV, hC, hI, hpt, hr, fun k => hquad _ (column_mem_colq k)⟩

/-- Settles O49: the diagonals are the quadruples of the round. -/
theorem diagonalRoundMixesEveryDiagonal : Obligations.DiagonalRoundMixesEveryDiagonal := by
  intro s rest hf hs hp
  obtain ⟨t, hrun, hF, hV, hC, hI, hpt, hr, hquad⟩ := run_round diagq_coversOnce hf hs hp
  exact ⟨t, hrun, hF, hV, hC, hI, hpt, hr, fun k => hquad _ (diagonal_mem_diagq k)⟩

/-- A permutation of a round's commands is the commands of the permuted quadruples. -/
theorem exists_perm_map {cs : List Command} {qs : List IdxQuad} (h : cs.Perm (qs.map aqrCommand)) :
    ∃ ps : List IdxQuad, ps.Perm qs ∧ cs = ps.map aqrCommand := by
  have hcomp : Relation.Comp (fun (cs : List Command) (ps : List IdxQuad) => cs = ps.map aqrCommand)
      (fun ps qs => ps.Perm qs) cs qs := by
    rw [List.eq_map_comp_perm]
    exact h
  obtain ⟨ps, hcs, hps⟩ := hcomp
  exact ⟨ps, hps, hcs⟩

/-- The commands of a round in any order leave the same architectural state (R129). -/
theorem run_round_perm {cs : List Command} {qs : List IdxQuad} {s : State} {rest : List HostEvent} (hqs : CoversOnce qs)
    (hperm : cs.Perm (qs.map aqrCommand)) (hf : s.FATAL = false) (hs : s.constructed) :
    ∃ t u, run qs.length { s with pending := issueAll cs ++ rest } = .next t ∧
      run qs.length { s with pending := issueAll (qs.map aqrCommand) ++ rest } = .next u ∧ t.sameArch u := by
  obtain ⟨ps, hps, rfl⟩ := exists_perm_map hperm
  obtain ⟨cw, cd, ht⟩ := run_aqrCommands (qs := ps) (rest := rest)
    (s := { s with pending := issueAll (ps.map aqrCommand) ++ rest }) hf (fun q _ => allValid_of_constructed hs q) rfl
  obtain ⟨cw', cd', hu⟩ := run_aqrCommands (qs := qs) (rest := rest)
    (s := { s with pending := issueAll (qs.map aqrCommand) ++ rest }) hf (fun q _ => allValid_of_constructed hs q) rfl
  rw [hps.length_eq] at ht
  exact ⟨_, _, ht, hu, (quartersOn_perm hps.symm hqs s.S).symm, rfl, rfl, rfl, rfl⟩

/-- Settles O46: a reordered round is the round of the reordered table. -/
theorem orderInsideARoundDoesNotMatter : Obligations.OrderInsideARoundDoesNotMatter := by
  rintro s cs ds rest hf hs (rfl | rfl) hperm
  · exact run_round_perm colq_coversOnce hperm hf hs
  · exact run_round_perm diagq_coversOnce hperm hf hs

/-! ### A round on unwritten words -/

/-- A list in which some quadruple has an unwritten word is split at the first of them. -/
theorem exists_first_unwritten {qs : List IdxQuad} {s : State} (h : ∃ q ∈ qs, s.allValid q = false) :
    ∃ ps q rs, qs = ps ++ q :: rs ∧ s.allValid q = false ∧ ∀ p ∈ ps, s.allValid p = true := by
  obtain ⟨q, hq⟩ := Option.isSome_iff_exists.1
    (List.find?_isSome (p := fun q => !s.allValid q).2 (by simpa using h))
  obtain ⟨hv, ps, rs, hqs, hps⟩ := List.find?_eq_some_iff_append.1 hq
  exact ⟨ps, q, rs, hqs, by simpa using hv, by simpa using hps⟩

/-- A state that is not constructed has an unwritten word in some quadruple of a round. -/
theorem exists_unwritten_of_not_constructed {qs : List IdxQuad} {s : State} (hqs : CoversOnce qs)
    (hs : ¬ s.constructed) : ∃ q ∈ qs, s.allValid q = false := by
  rw [constructed_iff] at hs
  push Not at hs
  obtain ⟨j, hj⟩ := hs
  obtain ⟨q, hq, hjq⟩ := hqs.exists_mem j
  refine ⟨q, hq, Bool.eq_false_iff.2 fun hv => hj ?_⟩
  obtain ⟨hx, hy, hz, hw⟩ := allValid_eq_true.1 hv
  simp only [IdxQuad.indices, List.mem_cons, List.not_mem_nil, or_false] at hjq
  rcases hjq with rfl | rfl | rfl | rfl <;> assumption

/-- Settles O50: the table is split at the first quadruple with an unwritten word; the commands before it end Done, and it
takes fatal entry. -/
theorem roundOnUnwrittenWordsIsFatal : Obligations.RoundOnUnwrittenWordsIsFatal := by
  intro s qs hf hs hqs hp
  have hround : CoversOnce qs ∧ qs.length = 4 := by
    rcases hqs with rfl | rfl
    · exact ⟨colq_coversOnce, rfl⟩
    · exact ⟨diagq_coversOnce, rfl⟩
  obtain ⟨hcovers, hlen⟩ := hround
  obtain ⟨ps, q, rs, rfl, hq, hps⟩ := exists_first_unwritten (exists_unwritten_of_not_constructed hcovers hs)
  have htake : (ps ++ q :: rs).take ps.length = ps := List.take_left
  rw [List.map_append, issueAll_append] at hp
  obtain ⟨cw, cd, hrun⟩ := run_aqrCommands hf hps hp
  have hstep := step_aqrCommand_of_unwritten (q := q) (rest := issueAll (rs.map aqrCommand)) (s := { s with
    S := quartersOn ps s.S, CW := cw, CD := cd, pending := issueAll ((q :: rs).map aqrCommand),
    responses := s.responses ++ List.replicate ps.length 0#128 }) hf hq rfl
  refine ⟨ps.length, q, _, by simp, hq, htake.symm ▸ hps, (run_add_of_next hrun).trans (run_succ_of_next hstep), rfl, rfl,
    rfl, htake.symm ▸ rfl, rfl, rfl, fun hk => ?_⟩
  refine noCommandIsAcceptedInTheFatalState.2.2 _ (rs.map aqrCommand) rfl ?_ rfl
  rintro hnil
  rw [List.map_eq_nil_iff] at hnil
  simp [hnil] at hlen
  omega

/-! ### Ten double rounds -/

/-- The quadruples of `n` double rounds (R125, R126). -/
def doubleRoundQuads : Nat → List IdxQuad
  | 0 => []
  | n + 1 => (colq ++ diagq) ++ doubleRoundQuads n

theorem doubleRounds_eq_map (n : Nat) : doubleRounds n = (doubleRoundQuads n).map aqrCommand := by
  induction n with
  | zero => rfl
  | succ n ih => rw [doubleRounds, doubleRoundQuads, List.map_append, ih]; rfl

theorem length_doubleRoundQuads (n : Nat) : (doubleRoundQuads n).length = 8 * n := by
  induction n with
  | zero => rfl
  | succ n ih =>
    rw [doubleRoundQuads, List.length_append, ih, Nat.mul_succ, Nat.add_comm]
    rfl

theorem quartersOn_doubleRoundQuads (n : Nat) (S : Vector Word 16) :
    quartersOn (doubleRoundQuads n) S = doubleRoundsOn n S := by
  induction n generalizing S with
  | zero => rfl
  | succ n ih => rw [doubleRoundQuads, quartersOn_append, quartersOn_append, ih, doubleRoundsOn]

/-- PERMUTE20 on a constructed state, with all it leaves (R126). -/
theorem run_permute20 {s : State} {rest : List HostEvent} (hf : s.FATAL = false) (hs : s.constructed)
    (hp : s.pending = issueAll permute20 ++ rest) :
    ∃ cw cd, run 80 s = .next { s with
      S := doubleRoundsOn 10 s.S, CW := cw, CD := cd, pending := rest,
      responses := s.responses ++ List.replicate 80 0#128 } := by
  rw [permute20, doubleRounds_eq_map] at hp
  have hrun := run_aqrCommands hf (fun q _ => allValid_of_constructed hs q) hp
  rwa [length_doubleRoundQuads, quartersOn_doubleRoundQuads] at hrun

/-- Settles O51: the eighty commands are the AQR commands of ten double rounds. -/
theorem permuteRunsTenDoubleRounds : Obligations.PermuteRunsTenDoubleRounds := by
  intro s rest hf hs hp
  obtain ⟨cw, cd, hrun⟩ := run_permute20 hf hs hp
  exact ⟨_, hrun, hf, rfl, rfl, rfl, rfl⟩

/-! ### Load and read out -/

/-- The step that accepts the SET of a word. -/
theorem step_setCommand {s : State} {i : WordIdx} {v : Word} {rest : List HostEvent} (hf : s.FATAL = false)
    (hp : s.pending = .issue (setCommand i v) :: rest) :
    step s = .next ((((s.sample (setCommand i v) rest).writeWord i v).setValid i).respond 0#128) := by
  obtain ⟨hlane, -⟩ := busOfWord_lanes v
  rw [step_of_command hf hp (decode_encode _)]
  refine execSet_eq_next.2 ⟨hf, .inl ⟨i, toNat_idxField i, ?_⟩⟩
  rw [State.sample_CD, setCommand, hlane]

/-- SET commands: each ends Done, and the words named are those given (R107). -/
theorem run_setCommands {is : List WordIdx} {s : State} (ws : Vector Word 16) {rest : List HostEvent}
    (hf : s.FATAL = false) (hp : s.pending = issueAll (is.map fun i => setCommand i ws[i.1]) ++ rest) :
    ∃ t, run is.length s = .next t ∧ t.FATAL = false ∧ t.pending = rest ∧
      t.responses = s.responses ++ List.replicate is.length 0#128 ∧
      ∀ j, t.word j = (if j ∈ is then ws[j.1] else s.word j) ∧ t.valid j = (decide (j ∈ is) || s.valid j) := by
  induction is generalizing s with
  | nil => exact ⟨s, run_zero s, hf, hp, (List.append_nil _).symm, fun j => ⟨by simp, by simp⟩⟩
  | cons i is ih =>
    have hstep := step_setCommand hf hp
    obtain ⟨t, hrun, hF, hpt, hr, hword⟩ :=
      ih (s := (((s.sample (setCommand i ws[i.1]) _).writeWord i ws[i.1]).setValid i).respond 0#128) hf rfl
    refine ⟨t, (run_succ_of_next hstep).trans hrun, hF, hpt, ?_, fun j => ?_⟩
    · rw [hr]
      simp [List.replicate_succ]
    · obtain ⟨hw, hv⟩ := hword j
      rw [hw, hv]
      by_cases hji : j = i
      · simp [hji, State.word_writeWord, State.valid_setValid]
      · simp [hji, State.word_writeWord, State.valid_setValid]

/-- Settles O52: the sixteen commands name every word. -/
theorem loadConstructsTheState : Obligations.LoadConstructsTheState := by
  intro s ws rest hf hp
  obtain ⟨t, hrun, hF, hpt, hr, hword⟩ := run_setCommands ws hf hp
  rw [List.length_finRange] at hrun hr
  simp only [List.mem_finRange, if_true, decide_true, Bool.true_or] at hword
  exact ⟨t, hrun, hF, constructed_iff.2 fun j => (hword j).2, Vector.ext fun k hk => (hword ⟨k, hk⟩).1, hpt, hr⟩

/-- The step that accepts the GET of a written word. -/
theorem step_getCommand {s : State} {i : WordIdx} {rest : List HostEvent} (hf : s.FATAL = false)
    (hv : s.valid i = true) (hp : s.pending = .issue (getCommand i) :: rest) :
    step s = .next ((s.sample (getCommand i) rest).respond (busOfWord (s.word i))) := by
  rw [step_of_command hf hp (decode_encode _)]
  exact execGet_eq_next.2 ⟨hf, .inl ⟨i, toNat_idxField i, .inl ⟨hv, rfl⟩⟩⟩

/-- GET commands on a constructed state: each responds its word, and nothing else changes (R106). -/
theorem run_getCommands {is : List WordIdx} {s : State} {rest : List HostEvent} (hf : s.FATAL = false)
    (hs : s.constructed) (hp : s.pending = issueAll (is.map getCommand) ++ rest) :
    ∃ cw cd, run is.length s = .next { s with
      CW := cw, CD := cd, pending := rest, responses := s.responses ++ is.map fun i => busOfWord (s.word i) } := by
  induction is generalizing s with
  | nil =>
    refine ⟨s.CW, s.CD, (run_zero s).trans ?_⟩
    have hp' : s.pending = rest := hp
    simp [← hp']
  | cons i is ih =>
    have hstep := step_getCommand hf (constructed_iff.1 hs i) hp
    obtain ⟨cw, cd, hrun⟩ := ih (s := (s.sample (getCommand i) _).respond (busOfWord (s.word i))) hf hs rfl
    refine ⟨cw, cd, (run_succ_of_next hstep).trans (hrun.trans ?_)⟩
    simp

/-- The sixteen words in index order. -/
theorem map_word_finRange (s : State) : (List.finRange 16).map s.word = s.S.toList := by
  apply List.ext_getElem
  · simp
  · intro k _ _
    simp [State.word]

/-- RDST on a constructed state, with all it leaves (R128). -/
theorem run_rdst {s : State} {rest : List HostEvent} (hf : s.FATAL = false) (hs : s.constructed)
    (hp : s.pending = issueAll rdst ++ rest) :
    ∃ cw cd, run 16 s = .next { s with
      CW := cw, CD := cd, pending := rest, responses := s.responses ++ s.S.toList.map fun v => v.setWidth 128 } := by
  have hrun := run_getCommands hf hs hp
  rw [List.length_finRange] at hrun
  rw [← map_word_finRange, List.map_map]
  exact hrun

/-- Settles O53: the read-out is the sixteen GET commands in index order. -/
theorem readOutDeliversEveryWord : Obligations.ReadOutDeliversEveryWord := by
  intro s rest hf hs hp
  obtain ⟨cw, cd, hrun⟩ := run_rdst hf hs hp
  exact ⟨_, hrun, ⟨rfl, rfl, rfl, rfl, rfl⟩, rfl, rfl⟩

/-- Settles O54: the three parts run one after another, 112 = 16 + 80 + 16 commands. -/
theorem loadPermuteReadOutDeliversThePermutation : Obligations.LoadPermuteReadOutDeliversThePermutation := by
  intro s ws hf hp
  rw [issueAll_append, issueAll_append, List.append_assoc] at hp
  obtain ⟨t, hload, hF, hV, hS, hpt, hr⟩ := loadConstructsTheState s ws _ hf hp
  obtain ⟨cw, cd, hpermute⟩ := run_permute20 hF hV hpt
  obtain ⟨cw', cd', hread⟩ := run_rdst (rest := []) (s := { t with
    S := doubleRoundsOn 10 t.S, CW := cw, CD := cd, pending := issueAll rdst,
    responses := t.responses ++ List.replicate 80 0#128 }) hF hV (List.append_nil _).symm
  have hrun : run (16 + (80 + 16)) s = _ :=
    (run_add_of_next hload).trans ((run_add_of_next hpermute).trans hread)
  refine ⟨_, hrun, hF, rfl, ?_⟩
  rw [hr, hS, List.append_assoc s.responses, List.replicate_append_replicate]

end Sys2Proof.Machine
end

section
/-! PROOFS. The assembler of the host (spec/30_encoding.md R73, R74): the numbers that its command words and data stand for,
and the expansion of the pseudo-instructions. -/

namespace Sys2Proof

/-! ### Packed fields as numbers -/

theorem toNat_append_eq_add {m n : Nat} (x : BitVec m) (y : BitVec n) :
    (x ++ y).toNat = x.toNat * 2 ^ n + y.toNat := by
  rw [BitVec.toNat_append, ← Nat.shiftLeft_add_eq_or_of_lt y.isLt, Nat.shiftLeft_eq]

/-- A command word as a number (R61). -/
theorem packWord_toNat (op : BitVec 8) (x y z w : IdxField) : (packWord op x y z w).toNat =
    op.toNat * 2 ^ 32 + x.toNat * 2 ^ 24 + y.toNat * 2 ^ 16 + z.toNat * 2 ^ 8 + w.toNat := by
  simp only [packWord, toNat_append_eq_add]
  ring

theorem encode_get_toNat (f : IdxField) : (encode (.get f)).toNat = 3 * 2 ^ 32 + f.toNat := by
  simp [encode, packWord_toNat]

theorem encode_set_toNat (f : IdxField) : (encode (.set f)).toNat = 4 * 2 ^ 32 + f.toNat := by
  simp [encode, packWord_toNat]

end Sys2Proof

namespace Sys2Proof.Machine

/-- A data bus as a number (R66). -/
theorem busOf_toNat (l0 l1 l2 l3 : Word) :
    (busOf l0 l1 l2 l3).toNat = l3.toNat * 2 ^ 96 + l2.toNat * 2 ^ 64 + l1.toNat * 2 ^ 32 + l0.toNat := by
  simp only [busOf, toNat_append_eq_add]
  ring

theorem busOfWord_toNat (v : Word) : (busOfWord v).toNat = v.toNat := by
  rw [busOfWord, BitVec.toNat_setWidth]
  exact Nat.mod_eq_of_lt (Nat.lt_of_lt_of_le v.isLt (by decide))

/-- An index that can be encoded is the value of its field. -/
theorem toNat_ofNat_of_le_255 {n : Nat} (h : n ≤ 255) : (BitVec.ofNat 8 n).toNat = n := by
  rw [BitVec.toNat_ofNat]
  exact Nat.mod_eq_of_lt (Nat.lt_succ_of_le h)

/-- A word that can be encoded is the value of its lane. -/
theorem toNat_ofNat_of_lt_word {n : Nat} (h : n < 2 ^ 32) : (BitVec.ofNat 32 n).toNat = n := by
  rw [BitVec.toNat_ofNat]
  exact Nat.mod_eq_of_lt h

/-! ### The lines of the four commands -/

theorem assemble_of_wellFormed {l : AsmLine} (h : l.wellFormed = true) : assemble l = some (expandLine l) :=
  if_pos h

theorem assemble_of_not_wellFormed {l : AsmLine} (h : l.wellFormed = false) : assemble l = none :=
  if_neg (Bool.eq_false_iff.1 h)

theorem indexEncodable_eq_true {n : Nat} : indexEncodable n = true ↔ n ≤ 255 := by
  rw [indexEncodable, decide_eq_true_eq]

theorem indexEncodable_eq_false {n : Nat} : indexEncodable n = false ↔ 255 < n := by
  rw [indexEncodable, decide_eq_false_iff_not, Nat.not_le]

theorem wordEncodable_eq_true {n : Nat} : wordEncodable n = true ↔ n < 2 ^ 32 := by
  rw [wordEncodable, decide_eq_true_eq]

/-- Settles O55: each line is well formed exactly when its operands fit, and its packed fields are read as numbers. -/
theorem assemblerEncodesEveryCommandLine : Obligations.AssemblerEncodesEveryCommandLine := by
  refine ⟨fun a b c d ha hb hc hd => ?_, fun x y z w hx hy hz hw => ?_, fun i hi => ?_, fun i v hi hv => ?_,
    fun x y z w h => ?_, fun i h => ?_, fun i v h => ?_⟩
  · refine ⟨_, assemble_of_wellFormed ?_, ?_⟩
    · simp only [AsmLine.wellFormed, Bool.and_eq_true, wordEncodable_eq_true]
      exact ⟨⟨⟨ha, hb⟩, hc⟩, hd⟩
    rw [busOf_toNat, toNat_ofNat_of_lt_word ha, toNat_ofNat_of_lt_word hb, toNat_ofNat_of_lt_word hc,
      toNat_ofNat_of_lt_word hd]
  · refine ⟨_, assemble_of_wellFormed ?_, ?_⟩
    · simp only [AsmLine.wellFormed, Bool.and_eq_true, indexEncodable_eq_true]
      exact ⟨⟨⟨hx, hy⟩, hz⟩, hw⟩
    rw [encode, packWord_toNat, toNat_ofNat_of_le_255 hx, toNat_ofNat_of_le_255 hy, toNat_ofNat_of_le_255 hz,
      toNat_ofNat_of_le_255 hw]
    rfl
  · refine ⟨_, assemble_of_wellFormed (indexEncodable_eq_true.2 hi), ?_⟩
    rw [encode_get_toNat, toNat_ofNat_of_le_255 hi]
  · refine ⟨_, _, assemble_of_wellFormed ?_, ?_, ?_⟩
    · simp only [AsmLine.wellFormed, Bool.and_eq_true, indexEncodable_eq_true, wordEncodable_eq_true]
      exact ⟨hi, hv⟩
    · rw [encode_set_toNat, toNat_ofNat_of_le_255 hi]
    · rw [busOfWord_toNat, toNat_ofNat_of_lt_word hv]
  · refine assemble_of_not_wellFormed ?_
    simpa only [AsmLine.wellFormed, Bool.and_eq_false_iff, indexEncodable_eq_false, or_assoc] using h
  · exact assemble_of_not_wellFormed (indexEncodable_eq_false.2 h)
  · refine assemble_of_not_wellFormed ?_
    rw [AsmLine.wellFormed, indexEncodable_eq_false.2 h, Bool.false_and]

/-! ### The pseudo-instructions -/

theorem doubleRounds_eq_flatten (n : Nat) : doubleRounds n = (List.replicate n dblround).flatten := by
  induction n with
  | zero => rfl
  | succ n ih => rw [doubleRounds, List.replicate_succ, List.flatten_cons, ih]

theorem getElem?_map_finRange {α : Type} (f : WordIdx → α) (i : WordIdx) :
    ((List.finRange 16).map f)[i.1]? = some (f i) := by
  simp

/-- The words of an LDST line are its operands (R127). -/
theorem ldstWords_toNat {ws : List Nat} (hlen : ws.length = 16) (hws : ∀ v ∈ ws, v < 2 ^ 32) (i : WordIdx) :
    ws[i.1]? = some (ldstWords ws)[i.1].toNat := by
  have hi : i.1 < ws.length := hlen.symm ▸ i.2
  have hget : (ldstWords ws)[i.1] = BitVec.ofNat 32 ws[i.1] := by
    simp [ldstWords, hi]
  rw [hget, toNat_ofNat_of_lt_word (hws _ (List.getElem_mem hi)), List.getElem?_eq_getElem hi]

/-- Settles O56: the rounds are fixed lists, PERMUTE20 is ten times the double round, and LDST and RDST are read at each
index. -/
theorem assemblerExpandsEveryPseudoInstruction : Obligations.AssemblerExpandsEveryPseudoInstruction := by
  refine ⟨by decide, by decide, by decide, ?_, fun ws hlen hws => ?_, fun ws hlen => ?_, ?_⟩
  · exact (assemble_of_wellFormed rfl).trans (congrArg some (doubleRounds_eq_flatten 10))
  · have hwf : (AsmLine.ldst ws).wellFormed = true := by
      simpa [AsmLine.wellFormed, hlen, wordEncodable_eq_true] using hws
    refine ⟨_, assemble_of_wellFormed hwf, by simp [expandLine, ldst],
      fun i => ⟨_, getElem?_map_finRange (fun i => setCommand i (ldstWords ws)[i.1]) i, ?_, ?_⟩⟩
    · exact (encode_set_toNat _).trans (congrArg _ (toNat_idxField i))
    · rw [ldstWords_toNat hlen hws, setCommand, busOfWord_toNat]
  · exact assemble_of_not_wellFormed (by simp [AsmLine.wellFormed, hlen])
  · refine ⟨_, assemble_of_wellFormed rfl, by simp [expandLine, rdst],
      fun i => ⟨_, getElem?_map_finRange getCommand i, ?_, rfl⟩⟩
    exact (encode_get_toNat _).trans (congrArg _ (toNat_idxField i))

end Sys2Proof.Machine
end
